-- ==== Sys2Proof/Word.lean ====
section
/-! DEFINITION. The word types of the machine (spec 10_state.md rule R20, 30_encoding.md rule R71). -/

namespace Sys2Proof

/-- A 16-bit value: `pc`, `I`, a stack entry, an instruction word, a button bitmask (R20, R70). -/
abbrev Word := BitVec 16

/-- An 8-bit value: a general register, a timer, a memory byte, a framebuffer byte (R20, R38). -/
abbrev Byte := BitVec 8

/-- A 12-bit address operand `nnn` (R71). -/
abbrev Addr := BitVec 12

/-- A 4-bit field of an instruction word: the category `c`, the sub-opcode or the count `n` (R71). -/
abbrev Nibble := BitVec 4

/-- The index of a general register, the 4-bit field `x` or `y` (R21, R71): no index outside 0..15 can be
formed. -/
abbrev RegIx := Fin 16

end Sys2Proof
end

