-- ==== Sys2Proof/Syntax.lean ====
section
/-! DEFINITION. The instructions: one constructor per row of spec/opcode_table.json, in the table's order
(30_encoding.md rules R73, R75). -/

namespace Sys2Proof

/-- An instruction of the target set (R75). Operands carry the ranges of R71 in their types: `x`, `y` registers,
`nn` a byte, `nnn` an address, `n` a count 0..15. -/
inductive Instr where
  /-- `00E0` `CLS` display clear (R200). -/
  | cls
  /-- `00EE` `RET` subroutine return (R120). -/
  | ret
  /-- `1NNN` `JP addr` absolute jump (R121). -/
  | jp (nnn : Addr)
  /-- `2NNN` `CALL addr` call (R122). -/
  | call (nnn : Addr)
  /-- `3XNN` `SE Vx, byte` skip if register equals immediate (R123). -/
  | seImm (x : RegIx) (nn : Byte)
  /-- `4XNN` `SNE Vx, byte` skip if register not equal immediate (R124). -/
  | sneImm (x : RegIx) (nn : Byte)
  /-- `5XY0` `SE Vx, Vy` skip if registers equal (R125). -/
  | seReg (x y : RegIx)
  /-- `6XNN` `LD Vx, byte` load immediate (R141). -/
  | ldImm (x : RegIx) (nn : Byte)
  /-- `7XNN` `ADD Vx, byte` add immediate (R142). -/
  | addImm (x : RegIx) (nn : Byte)
  /-- `8XY0` `LD Vx, Vy` register move (R143). -/
  | ldReg (x y : RegIx)
  /-- `8XY1` `OR Vx, Vy` (R144). -/
  | orReg (x y : RegIx)
  /-- `8XY2` `AND Vx, Vy` (R145). -/
  | andReg (x y : RegIx)
  /-- `8XY3` `XOR Vx, Vy` (R146). -/
  | xorReg (x y : RegIx)
  /-- `8XY4` `ADD Vx, Vy` add with carry (R147). -/
  | addReg (x y : RegIx)
  /-- `8XY5` `SUB Vx, Vy` subtract (R148). -/
  | sub (x y : RegIx)
  /-- `8XY6` `SHR Vx, Vy` shift right (R149). -/
  | shr (x y : RegIx)
  /-- `8XY7` `SUBN Vx, Vy` reverse subtract (R150). -/
  | subn (x y : RegIx)
  /-- `8XYE` `SHL Vx, Vy` shift left (R151). -/
  | shl (x y : RegIx)
  /-- `9XY0` `SNE Vx, Vy` skip if registers not equal (R126). -/
  | sneReg (x y : RegIx)
  /-- `ANNN` `LD I, addr` set index (R160). -/
  | ldI (nnn : Addr)
  /-- `BNNN` `JP V0, addr` jump with offset (R127). -/
  | jpV0 (nnn : Addr)
  /-- `CXNN` `RND Vx, byte` randomize and mask (R152). -/
  | rnd (x : RegIx) (nn : Byte)
  /-- `DXYN` `DRW Vx, Vy, nibble` draw sprite (R201). -/
  | drw (x y : RegIx) (n : Nibble)
  /-- `EX9E` `SKP Vx` skip if button down (R183). -/
  | skp (x : RegIx)
  /-- `EXA1` `SKNP Vx` skip if button up (R184). -/
  | sknp (x : RegIx)
  /-- `FX07` `LD Vx, DT` read delay timer (R180). -/
  | ldVxDt (x : RegIx)
  /-- `FX0A` `LD Vx, K` wait for key (R185). -/
  | ldVxK (x : RegIx)
  /-- `FX15` `LD DT, Vx` set delay timer (R181). -/
  | ldDtVx (x : RegIx)
  /-- `FX18` `LD ST, Vx` set sound timer (R182). -/
  | ldStVx (x : RegIx)
  /-- `FX1E` `ADD I, Vx` add register to index (R161). -/
  | addIVx (x : RegIx)
  /-- `FX29` `LD F, Vx` point index at font glyph (R162). -/
  | ldFVx (x : RegIx)
  /-- `FX33` `LD B, Vx` BCD (R163). -/
  | ldBVx (x : RegIx)
  /-- `FX55` `LD [I], Vx` store registers (R164). -/
  | ldMemVx (x : RegIx)
  /-- `FX65` `LD Vx, [I]` load registers (R165). -/
  | ldVxMem (x : RegIx)
deriving DecidableEq, Repr

end Sys2Proof
end

