-- ==== Sys2Proof/WellFormed.lean ====
section
/-! DEFINITION. What may be asked of raw data before it is run: a word of the opcode map (30_encoding.md rule R75)
and a program image (10_state.md rule R43). A term of `Instr` needs no check: its operand types are exactly the
ranges of rule R71. -/

namespace Sys2Proof

/-- One row of the opcode map of R75: a word is this pattern exactly when `op AND mask = value`. -/
structure OpcodeRow where
  pattern : String
  mask    : Word
  value   : Word
deriving DecidableEq, Repr

/-- Does the word match the row (R75)? -/
def OpcodeRow.covers (r : OpcodeRow) (op : Word) : Bool := op &&& r.mask == r.value

/-- The row of R75 that an instruction belongs to. -/
def opcodeRow : Instr → OpcodeRow
  | .cls => ⟨"00E0", 0xFFFF, 0x00E0⟩
  | .ret => ⟨"00EE", 0xFFFF, 0x00EE⟩
  | .jp _ => ⟨"1NNN", 0xF000, 0x1000⟩
  | .call _ => ⟨"2NNN", 0xF000, 0x2000⟩
  | .seImm _ _ => ⟨"3XNN", 0xF000, 0x3000⟩
  | .sneImm _ _ => ⟨"4XNN", 0xF000, 0x4000⟩
  | .seReg _ _ => ⟨"5XY0", 0xF00F, 0x5000⟩
  | .ldImm _ _ => ⟨"6XNN", 0xF000, 0x6000⟩
  | .addImm _ _ => ⟨"7XNN", 0xF000, 0x7000⟩
  | .ldReg _ _ => ⟨"8XY0", 0xF00F, 0x8000⟩
  | .orReg _ _ => ⟨"8XY1", 0xF00F, 0x8001⟩
  | .andReg _ _ => ⟨"8XY2", 0xF00F, 0x8002⟩
  | .xorReg _ _ => ⟨"8XY3", 0xF00F, 0x8003⟩
  | .addReg _ _ => ⟨"8XY4", 0xF00F, 0x8004⟩
  | .sub _ _ => ⟨"8XY5", 0xF00F, 0x8005⟩
  | .shr _ _ => ⟨"8XY6", 0xF00F, 0x8006⟩
  | .subn _ _ => ⟨"8XY7", 0xF00F, 0x8007⟩
  | .shl _ _ => ⟨"8XYE", 0xF00F, 0x800E⟩
  | .sneReg _ _ => ⟨"9XY0", 0xF00F, 0x9000⟩
  | .ldI _ => ⟨"ANNN", 0xF000, 0xA000⟩
  | .jpV0 _ => ⟨"BNNN", 0xF000, 0xB000⟩
  | .rnd _ _ => ⟨"CXNN", 0xF000, 0xC000⟩
  | .drw _ _ _ => ⟨"DXYN", 0xF000, 0xD000⟩
  | .skp _ => ⟨"EX9E", 0xF0FF, 0xE09E⟩
  | .sknp _ => ⟨"EXA1", 0xF0FF, 0xE0A1⟩
  | .ldVxDt _ => ⟨"FX07", 0xF0FF, 0xF007⟩
  | .ldVxK _ => ⟨"FX0A", 0xF0FF, 0xF00A⟩
  | .ldDtVx _ => ⟨"FX15", 0xF0FF, 0xF015⟩
  | .ldStVx _ => ⟨"FX18", 0xF0FF, 0xF018⟩
  | .addIVx _ => ⟨"FX1E", 0xF0FF, 0xF01E⟩
  | .ldFVx _ => ⟨"FX29", 0xF0FF, 0xF029⟩
  | .ldBVx _ => ⟨"FX33", 0xF0FF, 0xF033⟩
  | .ldMemVx _ => ⟨"FX55", 0xF0FF, 0xF055⟩
  | .ldVxMem _ => ⟨"FX65", 0xF0FF, 0xF065⟩

/-- The 34 rows of R75, in the table's order. -/
def opcodeRows : List OpcodeRow :=
  [opcodeRow .cls, opcodeRow .ret, opcodeRow (.jp 0), opcodeRow (.call 0), opcodeRow (.seImm 0 0),
    opcodeRow (.sneImm 0 0), opcodeRow (.seReg 0 0), opcodeRow (.ldImm 0 0), opcodeRow (.addImm 0 0)] ++
  [opcodeRow (.ldReg 0 0), opcodeRow (.orReg 0 0), opcodeRow (.andReg 0 0), opcodeRow (.xorReg 0 0),
    opcodeRow (.addReg 0 0), opcodeRow (.sub 0 0), opcodeRow (.shr 0 0), opcodeRow (.subn 0 0),
    opcodeRow (.shl 0 0)] ++
  [opcodeRow (.sneReg 0 0), opcodeRow (.ldI 0), opcodeRow (.jpV0 0), opcodeRow (.rnd 0 0),
    opcodeRow (.drw 0 0 0), opcodeRow (.skp 0), opcodeRow (.sknp 0)] ++
  [opcodeRow (.ldVxDt 0), opcodeRow (.ldVxK 0), opcodeRow (.ldDtVx 0), opcodeRow (.ldStVx 0),
    opcodeRow (.addIVx 0), opcodeRow (.ldFVx 0), opcodeRow (.ldBVx 0), opcodeRow (.ldMemVx 0),
    opcodeRow (.ldVxMem 0)]

/-- Is the word an instruction of R75? -/
def wordDefined (op : Word) : Bool := opcodeRows.any (·.covers op)

/-- The greatest length of a program image, 4096 - 0x200 bytes (R5, R43). -/
def maxImage : Nat := 3584

/-- May the image be loaded (R43)? -/
def imageFits (image : List Byte) : Bool := image.length ≤ maxImage

end Sys2Proof
end

