-- ==== Sys2Proof/Decode.lean ====
section
/-! DEFINITION. Decoding, total on every word and on any bytes, rejecting by name (30_encoding.md rules R70 to R77),
and the encoder written from the same tables. The patterns are the spec's own reading (decisions D1 to D4; UNVERIFIED,
log 13). -/

namespace Sys2Proof

/-- Why bytes are no instruction. -/
inductive DecodeError where
  /-- No row of R75 matches the word: `DecodeFault` (R77). -/
  | undefinedWord (op : Word)
  /-- Fewer than the two bytes of a word (R70). No step meets this: the fetch checks its bound first (R51). -/
  | truncated
deriving DecidableEq, Repr

/-- `c = op[15:12]` (R71). -/
def opC (op : Word) : Nibble := op.extractLsb' 12 4

/-- `x = op[11:8]` (R71). -/
def opX (op : Word) : RegIx := (op.extractLsb' 8 4).toFin

/-- `y = op[7:4]` (R71). -/
def opY (op : Word) : RegIx := (op.extractLsb' 4 4).toFin

/-- `n = op[3:0]` (R71). -/
def opN (op : Word) : Nibble := op.extractLsb' 0 4

/-- `nn = op[7:0]` (R71). -/
def opNN (op : Word) : Byte := op.extractLsb' 0 8

/-- `nnn = op[11:0]` (R71). -/
def opNNN (op : Word) : Addr := op.extractLsb' 0 12

/-- The verdict of R77 on a word that no row matches. -/
def undefinedWord (op : Word) : Except DecodeError Instr := .error (.undefinedWord op)

/-- Category 0 (R76): the whole word selects. -/
def decode0 (op : Word) : Except DecodeError Instr :=
  if op = 0x00E0 then .ok .cls else if op = 0x00EE then .ok .ret else undefinedWord op

/-- Category 8 (R76): the sub-opcode `n` selects. -/
def decode8 (op : Word) : Except DecodeError Instr :=
  match (opN op).toNat with
  | 0x0 => .ok (.ldReg (opX op) (opY op))
  | 0x1 => .ok (.orReg (opX op) (opY op))
  | 0x2 => .ok (.andReg (opX op) (opY op))
  | 0x3 => .ok (.xorReg (opX op) (opY op))
  | 0x4 => .ok (.addReg (opX op) (opY op))
  | 0x5 => .ok (.sub (opX op) (opY op))
  | 0x6 => .ok (.shr (opX op) (opY op))
  | 0x7 => .ok (.subn (opX op) (opY op))
  | 0xE => .ok (.shl (opX op) (opY op))
  | _ => undefinedWord op

/-- Category E (R76): the low byte selects. -/
def decodeE (op : Word) : Except DecodeError Instr :=
  match (opNN op).toNat with
  | 0x9E => .ok (.skp (opX op))
  | 0xA1 => .ok (.sknp (opX op))
  | _ => undefinedWord op

/-- Category F (R76): the low byte selects. -/
def decodeF (op : Word) : Except DecodeError Instr :=
  match (opNN op).toNat with
  | 0x07 => .ok (.ldVxDt (opX op))
  | 0x0A => .ok (.ldVxK (opX op))
  | 0x15 => .ok (.ldDtVx (opX op))
  | 0x18 => .ok (.ldStVx (opX op))
  | 0x1E => .ok (.addIVx (opX op))
  | 0x29 => .ok (.ldFVx (opX op))
  | 0x33 => .ok (.ldBVx (opX op))
  | 0x55 => .ok (.ldMemVx (opX op))
  | 0x65 => .ok (.ldVxMem (opX op))
  | _ => undefinedWord op

/-- `decode(op)` of R76: by category, then by sub-opcode. The last arm is never reached: a category is below 16. -/
def decode (op : Word) : Except DecodeError Instr :=
  match (opC op).toNat with
  | 0x0 => decode0 op
  | 0x1 => .ok (.jp (opNNN op))
  | 0x2 => .ok (.call (opNNN op))
  | 0x3 => .ok (.seImm (opX op) (opNN op))
  | 0x4 => .ok (.sneImm (opX op) (opNN op))
  | 0x5 => if opN op = 0 then .ok (.seReg (opX op) (opY op)) else undefinedWord op
  | 0x6 => .ok (.ldImm (opX op) (opNN op))
  | 0x7 => .ok (.addImm (opX op) (opNN op))
  | 0x8 => decode8 op
  | 0x9 => if opN op = 0 then .ok (.sneReg (opX op) (opY op)) else undefinedWord op
  | 0xA => .ok (.ldI (opNNN op))
  | 0xB => .ok (.jpV0 (opNNN op))
  | 0xC => .ok (.rnd (opX op) (opNN op))
  | 0xD => .ok (.drw (opX op) (opY op) (opN op))
  | 0xE => decodeE op
  | 0xF => decodeF op
  | _ => undefinedWord op

/-- The 16-bit word of two bytes, the high byte at the lower address (R51, R57, R70). -/
def bigEndian (hi lo : Byte) : Word := hi ++ lo

/-- `op[15:8]`, the byte at the lower address (R51). -/
def highByte (op : Word) : Byte := op.extractLsb' 8 8

/-- `op[7:0]`, the byte at the higher address (R51). -/
def lowByte (op : Word) : Byte := op.extractLsb' 0 8

/-- Decoding from bytes: the instruction of the first two (R70) and the bytes after it. -/
def decodeBytes : List Byte → Except DecodeError (Instr × List Byte)
  | hi :: lo :: rest =>
    match decode (bigEndian hi lo) with
    | .ok i => .ok (i, rest)
    | .error e => .error e
  | _ => .error .truncated

/-- A register index as the 4-bit field of a word. -/
def regField (x : RegIx) : Nibble := BitVec.ofFin x

/-- Format `XY` of R73: category, `x`, `y`, sub-opcode. -/
def encodeXY (c : Nibble) (x y : RegIx) (n : Nibble) : Word := c ++ regField x ++ regField y ++ n

/-- Formats `XNN` and `X` of R73: category, `x`, low byte. -/
def encodeXNN (c : Nibble) (x : RegIx) (nn : Byte) : Word := c ++ regField x ++ nn

/-- Format `NNN` of R73: category, address. -/
def encodeNNN (c : Nibble) (nnn : Addr) : Word := c ++ nnn

/-- The word of an instruction, from the patterns of R75. -/
def encode : Instr → Word
  | .cls => 0x00E0
  | .ret => 0x00EE
  | .jp nnn => encodeNNN 0x1 nnn
  | .call nnn => encodeNNN 0x2 nnn
  | .seImm x nn => encodeXNN 0x3 x nn
  | .sneImm x nn => encodeXNN 0x4 x nn
  | .seReg x y => encodeXY 0x5 x y 0x0
  | .ldImm x nn => encodeXNN 0x6 x nn
  | .addImm x nn => encodeXNN 0x7 x nn
  | .ldReg x y => encodeXY 0x8 x y 0x0
  | .orReg x y => encodeXY 0x8 x y 0x1
  | .andReg x y => encodeXY 0x8 x y 0x2
  | .xorReg x y => encodeXY 0x8 x y 0x3
  | .addReg x y => encodeXY 0x8 x y 0x4
  | .sub x y => encodeXY 0x8 x y 0x5
  | .shr x y => encodeXY 0x8 x y 0x6
  | .subn x y => encodeXY 0x8 x y 0x7
  | .shl x y => encodeXY 0x8 x y 0xE
  | .sneReg x y => encodeXY 0x9 x y 0x0
  | .ldI nnn => encodeNNN 0xA nnn
  | .jpV0 nnn => encodeNNN 0xB nnn
  | .rnd x nn => encodeXNN 0xC x nn
  | .drw x y n => encodeXY 0xD x y n
  | .skp x => encodeXNN 0xE x 0x9E
  | .sknp x => encodeXNN 0xE x 0xA1
  | .ldVxDt x => encodeXNN 0xF x 0x07
  | .ldVxK x => encodeXNN 0xF x 0x0A
  | .ldDtVx x => encodeXNN 0xF x 0x15
  | .ldStVx x => encodeXNN 0xF x 0x18
  | .addIVx x => encodeXNN 0xF x 0x1E
  | .ldFVx x => encodeXNN 0xF x 0x29
  | .ldBVx x => encodeXNN 0xF x 0x33
  | .ldMemVx x => encodeXNN 0xF x 0x55
  | .ldVxMem x => encodeXNN 0xF x 0x65

/-- The instruction's two bytes in memory order (R70). -/
def encodeBytes (i : Instr) : List Byte := [highByte (encode i), lowByte (encode i)]

/-- The word whose bits the opcode table numbers: the low `nbits` bits of `w`, every bit above them 0. -/
def tableWord (nbits w : Nat) : Word := BitVec.ofNat 16 (w % 2 ^ nbits)

/-- What the decoder reads from the table's word, laid out as the hardware stores it (R57). -/
def decodeTableWord (nbits w : Nat) : Option Instr :=
  match decodeBytes [highByte (tableWord nbits w), lowByte (tableWord nbits w)] with
  | .ok (i, _) => some i
  | .error _ => none

end Sys2Proof
end

