-- ==== Sys2Proof/Config.lean ====
section
/-! DEFINITION. What the source leaves open: the named parameters of 00_scope.md rule R5 (their types; the
defaults stand in Machine/Defaults.lean) and the free values of the three step inputs (rule R13). -/

namespace Sys2Proof

/-- `P_LOGIC_VF` (R5, decision D6): what `8XY1`, `8XY2`, `8XY3` do to `VF`. -/
inductive LogicVf where
  | unchanged
  | cleared
deriving DecidableEq, Repr

/-- `P_SHIFT_SRC` (R5, decision D7): the register that `8XY6` and `8XYE` shift. -/
inductive ShiftSrc where
  | x
  | y
deriving DecidableEq, Repr

/-- `P_LDST_I` (R5, decision D8): what `FX55` and `FX65` do to `I`. -/
inductive LdstI where
  | unchanged
  | advance
deriving DecidableEq, Repr

/-- The three behavioural parameters of rule R5, fixed for one machine; no step writes them. The fourth
parameter, `P_FONT`, is an argument of the load port (Machine/Load.lean). -/
structure Params where
  logicVf  : LogicVf
  shiftSrc : ShiftSrc
  ldstI    : LdstI
deriving DecidableEq, Repr

/-- The three values the host gives one step (R13): the button bitmask `keys`, the timer boundary `tick`, the
random byte `rnd`. -/
structure StepInput where
  keys : Word
  tick : Bool
  rnd  : Byte
deriving DecidableEq, Repr

/-- FREE VALUE (DESIGN CHOICE, log 1): the button bitmask of step number `n`, where the state schedules none (U10). -/
opaque Config.freeKeys : Nat → Word

/-- FREE VALUE (DESIGN CHOICE, log 1): the timer boundary of step number `n`, where the state schedules none (U9). -/
opaque Config.freeTick : Nat → Bool

/-- FREE VALUE (DESIGN CHOICE, log 1): the random byte of step number `n`, where the state schedules none (U8). -/
opaque Config.freeRnd : Nat → Byte

end Sys2Proof
end

