-- ==== Sys2Proof/Machine/Defaults.lean ====
section
/-! DEFINITION. The default values of the parameters of 00_scope.md rule R5 and the font table of 10_state.md rule
R42. -/

namespace Sys2Proof.Machine

/-- The defaults of R5: logic operations leave `VF`, shifts shift `V[x]`, block transfers leave `I` (decisions D6,
D7, D8; UNVERIFIED, log 2). -/
def defaultParams : Sys2Proof.Params := { logicVf := .unchanged, shiftSrc := .x, ldstI := .unchanged }

/-- Glyphs 0 to 7 of the default `P_FONT` (R42). -/
def fontLow : List Byte :=
  [0xF0, 0x90, 0x90, 0x90, 0xF0] ++ [0x20, 0x60, 0x20, 0x20, 0x70] ++
  [0xF0, 0x10, 0xF0, 0x80, 0xF0] ++ [0xF0, 0x10, 0xF0, 0x10, 0xF0] ++
  [0x90, 0x90, 0xF0, 0x10, 0x10] ++ [0xF0, 0x80, 0xF0, 0x10, 0xF0] ++
  [0xF0, 0x80, 0xF0, 0x90, 0xF0] ++ [0xF0, 0x10, 0x20, 0x40, 0x40]

/-- Glyphs 8 to F of the default `P_FONT` (R42). -/
def fontHigh : List Byte :=
  [0xF0, 0x90, 0xF0, 0x90, 0xF0] ++ [0xF0, 0x90, 0xF0, 0x10, 0xF0] ++
  [0xF0, 0x90, 0xF0, 0x90, 0x90] ++ [0xE0, 0x90, 0xE0, 0x90, 0xE0] ++
  [0xF0, 0x80, 0x80, 0x80, 0xF0] ++ [0xE0, 0x90, 0x90, 0x90, 0xE0] ++
  [0xF0, 0x80, 0xF0, 0x80, 0xF0] ++ [0xF0, 0x80, 0xF0, 0x80, 0x80]

/-- The default `P_FONT`: 16 glyphs of 5 bytes, glyph `k` at `5k` (R42, decision D24; UNVERIFIED, log 6). -/
def defaultFont : List Byte := fontLow ++ fontHigh

/-- What a memory byte holds after a reset with an empty image, so what an unlisted address reads as: the default
font at 0x000-0x04F, 0 from there on (R40, decision D23; UNVERIFIED, logs 5, 7). -/
def resetByte (a : Nat) : Byte := defaultFont.getD a 0

end Sys2Proof.Machine
end

