-- ==== Sys2Proof/Machine/State.lean ====
section
/-! DEFINITION. The state of the machine, the outcomes of a step, and the state after reset (10_state.md rules R20,
R40; 40_cycle_engine.md rule R101). -/

namespace Sys2Proof.Machine

/-- The spec's fault kinds (60_exceptions.md rule R230). Taking a fault is a NEXT state of the model: the fault
latch is set and the outcome recorded (rule R237). -/
inductive FaultKind where
  /-- Code 0: no pattern matches the word (R232). -/
  | decodeFault
  /-- Code 1: an access, or the fetch, would pass address 0xFFF (R235). -/
  | capacityFault
  /-- Code 2: a call with 16 entries in use (R233). -/
  | stackOverflow
  /-- Code 3: a return with no entry in use (R234). -/
  | stackUnderflow
  /-- Code 4: a button index above 15 (R236). -/
  | invalidButtonIndex
  /-- Code 5: kept as R231 allows; no step raises it (DESIGN CHOICE, log 12). -/
  | invalidRegisterIndex
deriving DecidableEq, Repr

/-- The outcome of a step as the spec defines it (R101); a fault carries the word fetched (`none` when the fetch
itself faulted) and the `pc` of the step. -/
inductive CycleOutcome where
  | completed
  | haltedAwaitingInput
  | fault (kind : FaultKind) (opcode : Option Word) (address : Word)
deriving DecidableEq, Repr

/-- Where the MODEL stops; the spec's own faults are next states (see `FaultKind`). -/
inductive Fault where
  /-- A step of a machine whose fault latch is set: no such step exists until a new load (R34, R102; the source
  calls continuing undefined). Raised by `step` alone. SAFE: the model has fewer runs, not more (log 4). -/
  | stepAfterFault
deriving DecidableEq, Repr

/-- Why an instruction has no meaning. -/
inductive Refusal where
  /-- An instruction not modelled. No arm of `exec` answers it: every row of the table has its meaning. SAFE. -/
  | notModelled (mnemonic : String)
deriving DecidableEq, Repr

/-- Memory `M`: the bytes that differ from what an unlisted address reads as (`resetByte`), by rising address
(R38). Read and written through Machine/Memory.lean. -/
abbrev Memory := List Host.Cell

/-- The framebuffer, 64 x 32 pixels in 256 bytes (R36). -/
abbrev FrameBuffer := Vector Byte 256

/-- The 16 general registers (R21). -/
abbrev Registers := Vector Byte 16

/-- The state of the block: R20's table whole, then the model's own fields. -/
structure State where
  /-- `V[0]`..`V[15]` (R21); `V[15]` is `VF` (R22). -/
  v : Registers
  /-- The index register `I` (R25). -/
  i : Word
  /-- The program counter (R26). -/
  pc : Word
  /-- The stack entries `S[0]`..`S[15]` (R27). -/
  stack : Vector Word 16
  /-- `SP`, the count of entries in use, 0..16 (R27; the range is the type, DESIGN CHOICE, log 10). -/
  sp : Fin 17
  /-- The delay timer `DT` (R29). -/
  dt : Byte
  /-- The sound timer `ST` (R30). -/
  st : Byte
  /-- The bitmask recorded by the last step (R33). -/
  prevKeys : Word
  /-- The framebuffer `FB` (R36). -/
  fb : FrameBuffer
  /-- Memory `M` (R38). -/
  mem : Memory
  /-- The fault latch (R34). -/
  faulted : Bool
  /-- MODEL'S OWN: the outcome port, what the last step answered to the host (R101); none before the first step
  (DESIGN CHOICE, log 3). -/
  outcome : Option CycleOutcome
  /-- MODEL'S OWN: the parameters of R5 this machine is built with; no step writes them (DESIGN CHOICE, log 2). -/
  params : Params
  /-- MODEL'S OWN: the host's inputs for the coming steps, the next step's first (R13; DESIGN CHOICE, log 1). -/
  inputs : List StepInput
  /-- MODEL'S OWN: how many steps there were, the index of the free inputs (DESIGN CHOICE, log 1). -/
  stepNo : Nat
deriving DecidableEq, Repr

/-- The state after reset with an empty image: every value of R40, the default parameters, no memory byte listed,
no input scheduled. All but `pc` and the timers rest on the spec's decisions D20, D23, D24 (UNVERIFIED, logs 5, 6);
the last four fields are the model's own (logs 1 to 3). -/
def State.reset : State where
  v := Vector.replicate 16 0
  i := 0
  pc := 0x200
  stack := Vector.replicate 16 0
  sp := 0
  dt := 0
  st := 0
  prevKeys := 0
  fb := Vector.replicate 256 0
  mem := []
  faulted := false
  outcome := none
  params := defaultParams
  inputs := []
  stepNo := 0

end Sys2Proof.Machine
end

