-- ==== Sys2Proof/Machine/Memory.lean ====
section
/-! DEFINITION. The memory operations (20_memory.md rules R50 to R57). A byte is read and written one at a time; the
fetch builds its word from two reads. -/

namespace Sys2Proof.Machine

/-- The number of addresses, 0x000 to 0xFFF (R50). -/
def memSize : Nat := 4096

/-- The listed cells from address `lo` on are in canonical form: addresses rise strictly and exist, and no cell
lists what its address reads as unlisted. -/
def Memory.wfFrom : Nat → Memory → Bool
  | _, [] => true
  | lo, (k, b) :: rest => decide (lo ≤ k) && decide (k < memSize) && decide (b ≠ resetByte k) && Memory.wfFrom (k + 1) rest

/-- The canonical form of memory. -/
def Memory.wf (m : Memory) : Bool := Memory.wfFrom 0 m

/-- `MemRead(a, 1)` (R10): the listed byte, else the reset byte (R59). -/
def Memory.read : Memory → Nat → Byte
  | [], a => resetByte a
  | (k, b) :: rest, a => if k = a then b else Memory.read rest a

/-- A cell in front of a memory, left out when it lists what its address reads as anyway. -/
def Memory.cell (a : Nat) (b : Byte) (m : Memory) : Memory := if b = resetByte a then m else (a, b) :: m

/-- `MemWrite(a, 1, b)` (R10), keeping the canonical form. -/
def Memory.write : Memory → Nat → Byte → Memory
  | [], a, b => Memory.cell a b []
  | (k, c) :: rest, a, b =>
    if a < k then Memory.cell a b ((k, c) :: rest)
    else if a = k then Memory.cell a b rest
    else (k, c) :: Memory.write rest a b

/-- Bytes written at `a`, `a + 1`, ... in address order (R57). -/
def Memory.writeBytes : Memory → Nat → List Byte → Memory
  | m, _, [] => m
  | m, a, b :: bs => Memory.writeBytes (Memory.write m a b) (a + 1) bs

/-- `CheckRange(base, count)` of R53 passes: every address of the access is at most 0xFFF. An address is an exact
integer and never wraps (decision D16; UNVERIFIED, log 16). -/
def inRange (base : Word) (count : Nat) : Bool := decide (count = 0) || decide (base.toNat + count - 1 ≤ 0xFFF)

/-- `Fetch(pc)` of R51, `none` where the word would pass address 0xFFF (decision D15; UNVERIFIED, log
16); any pc up to there is fetched, odd or even (R56, decision D17). -/
def Memory.fetch (m : Memory) (pc : Word) : Option Word :=
  if 0xFFE < pc.toNat then none else some (bigEndian (m.read pc.toNat) (m.read (pc.toNat + 1)))

/-- An instruction word stored at an address, the high byte first (R57). -/
def Memory.writeWord (m : Memory) (a : Nat) (op : Word) : Memory := m.writeBytes a [highByte op, lowByte op]

end Sys2Proof.Machine
end

