-- ==== Sys2Proof/Machine/Ops.lean ====
section
/-! DEFINITION. The named operations over the state: registers, stack, next-pc classes, taking a fault, the timer
decrement, the step inputs, and the two ends of a step (40_cycle_engine.md). -/

namespace Sys2Proof.Machine

/-- A read of `V[x]` (R9). -/
def getV (x : RegIx) (s : State) : Byte := s.v[x]

/-- `V[x] <- b` (R9). No register is hard-wired (R21). -/
def setV (x : RegIx) (b : Byte) (s : State) : State := { s with v := s.v.set x b }

/-- `VF`, the flag register `V[15]` (R22). -/
def regVF : RegIx := 15

/-- All general registers at once (`FX65`). -/
def setRegs (v : Registers) (s : State) : State := { s with v := v }

/-- `I <- w` (R25). -/
def setI (w : Word) (s : State) : State := { s with i := w }

/-- `DT <- b` (R29). -/
def setDt (b : Byte) (s : State) : State := { s with dt := b }

/-- `ST <- b` (R30). -/
def setSt (b : Byte) (s : State) : State := { s with st := b }

/-- The framebuffer replaced (R37: by `00E0` and `DXYN` only). -/
def setFb (fb : FrameBuffer) (s : State) : State := { s with fb := fb }

/-- Memory replaced (R52: by `FX33` and `FX55` only). -/
def setMem (m : Memory) (s : State) : State := { s with mem := m }

/-- A push (R27): the value at `S[SP]`, `SP` one more; `none` when all 16 entries are in use. -/
def push (w : Word) (s : State) : Option State :=
  if h : s.sp.val < 16 then
    some { s with stack := s.stack.set s.sp.val w, sp := ⟨s.sp.val + 1, by omega⟩ }
  else none

/-- A pop (R27): `SP` one less, then `S[SP]`, which keeps its value; `none` when no entry is in use. -/
def pop (s : State) : Option (Word × State) :=
  if h : 0 < s.sp.val then
    some (s.stack[s.sp.val - 1], { s with sp := ⟨s.sp.val - 1, by omega⟩ })
  else none

/-- The next-pc classes of R106. -/
inductive NextPc where
  | seq
  | skip (taken : Bool)
  | jump (target : Word)
  | stay
deriving DecidableEq, Repr

/-- `next(K, pc)` of R106. -/
def nextPc : NextPc → Word → Word
  | .seq, pc => pc + 2
  | .skip taken, pc => if taken then pc + 4 else pc + 2
  | .jump target, _ => target
  | .stay, pc => pc

/-- The outcome a class gives its step (R101, R103). -/
def outcomeOf : NextPc → CycleOutcome
  | .stay => .haltedAwaitingInput
  | _ => .completed

/-- The instruction's writes stand and the pc advances by its class (R103, R106). -/
def advance (k : NextPc) (s : State) : State := { s with pc := nextPc k s.pc, outcome := some (outcomeOf k) }

/-- Taking a fault (R237): the latch is set and kind, word and `pc` are the outcome; nothing else is written
(R109). There is no handler and no saved state, and no return but a new load (R241). A next state of the model
(DESIGN CHOICE, log 4); what it leaves is the spec's decisions D20, D29, D30 (UNVERIFIED, log 18). -/
def raise (kind : FaultKind) (opcode : Option Word) (s : State) : State :=
  { s with faulted := true, outcome := some (.fault kind opcode s.pc) }

/-- The code of a fault kind (R230, decision D21). -/
def faultCode : FaultKind → Nat
  | .decodeFault => 0
  | .capacityFault => 1
  | .stackOverflow => 2
  | .stackUnderflow => 3
  | .invalidButtonIndex => 4
  | .invalidRegisterIndex => 5

/-- A fault found by an instruction: its word is the opcode reported (R101). The word fetched is the instruction's
encoding, since a legal word has no ignored bit (R78; DEDUCED, log 11). -/
def raiseAt (i : Instr) (kind : FaultKind) (s : State) : State := raise kind (some (encode i)) s

/-- The inputs of the coming step (R13): the first scheduled ones, else free values (DESIGN CHOICE, log 1). -/
def currentInput (s : State) : StepInput :=
  match s.inputs with
  | [] => { keys := Config.freeKeys s.stepNo, tick := Config.freeTick s.stepNo, rnd := Config.freeRnd s.stepNo }
  | i :: _ => i

/-- A timer toward zero, never below (R29, R186). -/
def countDown (b : Byte) : Byte := if b = 0 then 0 else b - 1

/-- The timer decrement at the start of a step (R104, R186). -/
def tickTimers (s : State) : State :=
  { s with
    dt := if (currentInput s).tick then countDown s.dt else s.dt
    st := if (currentInput s).tick then countDown s.st else s.st }

/-- The step's inputs are used up (MODEL'S OWN; DESIGN CHOICE, log 1). -/
def takeInput (s : State) : State := { s with inputs := s.inputs.tail, stepNo := s.stepNo + 1 }

/-- `prevKeys <- keys`, not on a fault (R108, R109). -/
def recordKeys (s : State) : State :=
  { s with prevKeys := if s.faulted then s.prevKeys else (currentInput s).keys }

/-- The end of a step after its instruction executed or faulted (R103). -/
def endStep (s : State) : State := takeInput (recordKeys s)

/-- Fetch and decode (R103 parts 2 and 3, priority R239): the instruction, or the state with the fault taken. -/
def fetchDecode (s : State) : Except State Instr :=
  match s.mem.fetch s.pc with
  | none => .error (raise .capacityFault none s)
  | some op =>
    match decode op with
    | .ok i => .ok i
    | .error _ => .error (raise .decodeFault (some op) s)

/-- A step's beginning for a machine that has none (R102). -/
def stuck : Host.Outcome State Fault Refusal := .fault .stepAfterFault

/-- The state that an executed instruction answers, brought to the end of the step. -/
def closeStep : Host.Outcome State Fault Refusal → Host.Outcome State Fault Refusal
  | .next s => .next (endStep s)
  | .fault r => .fault r
  | .refused r => .refused r

end Sys2Proof.Machine
end

