-- ==== Sys2Proof/Machine/Operands.lean ====
section
/-! DEFINITION. The operand forms (30_encoding.md rule R72 and the rules that name an operand of their own). -/

namespace Sys2Proof.Machine

/-- `zext_16(nnn)` (R72). -/
def zextAddr (nnn : Addr) : Word := nnn.setWidth 16

/-- `zext_16(b)` (R8). -/
def zextByte (b : Byte) : Word := b.setWidth 16

/-- The jump target of `BNNN`: `(zext_16(nnn) + V[0]) mod 0x10000` (R127). -/
def offsetTarget (nnn : Addr) (s : State) : Word := zextAddr nnn + zextByte (getV 0 s)

/-- The source of a shift, by `P_SHIFT_SRC` (R149, R151, decision D7). -/
def shiftSource (x y : RegIx) (s : State) : Byte :=
  match s.params.shiftSrc with
  | .x => getV x s
  | .y => getV y s

/-- The glyph address of `FX29`: `5 * (V[x] AND 0x0F)` (R162, decision D10; UNVERIFIED, log 15). -/
def glyphAddr (b : Byte) : Word := 5 * zextByte (b &&& 0x0F)

/-- The button that `V[x]` names, `none` above 15 (R183, R184). -/
def buttonIndex (b : Byte) : Option Nat := if b.toNat ≤ 15 then some b.toNat else none

/-- Is button `k` down (R32)? -/
def buttonDown (k : Nat) (s : State) : Bool := (currentInput s).keys.getLsbD k

/-- The buttons that went down since the last step: `keys AND NOT prevKeys` (R185). -/
def newPresses (s : State) : Word := (currentInput s).keys &&& ~~~ s.prevKeys

/-- The least `k` below 16 with bit `k` set (R185, decision D11; UNVERIFIED, log 15). -/
def leastBit (w : Word) : Option Nat := (List.range 16).find? (fun k => w.getLsbD k)

/-- The digits that `FX33` stores: hundreds, tens, ones (R163). -/
def bcdDigits (b : Byte) : List Byte :=
  [BitVec.ofNat 8 (b.toNat / 100), BitVec.ofNat 8 (b.toNat / 10 % 10), BitVec.ofNat 8 (b.toNat % 10)]

/-- `V[0]`..`V[x]`, the bytes that `FX55` stores (R164). -/
def regBytes (x : RegIx) (s : State) : List Byte := s.v.toList.take (x.val + 1)

/-- `V[k] <- M[base + k]` for `k` below the count, in that order (R165). -/
def loadRegs (m : Memory) (base : Nat) : Nat → Registers → Registers
  | 0, v => v
  | k + 1, v => (loadRegs m base k v).setIfInBounds k (m.read (base + k))

/-- `I` after a block transfer of `count` bytes, by `P_LDST_I` (R164, R165, decision D8). -/
def advanceI (count : Nat) (s : State) : State :=
  match s.params.ldstI with
  | .unchanged => s
  | .advance => setI (s.i + BitVec.ofNat 16 count) s

end Sys2Proof.Machine
end

