-- ==== Sys2Proof/Machine/Flags.lean ====
section
/-! DEFINITION. The flag computations and the order in which a destination and `VF` are written (42_alu.md rule
R140). -/

namespace Sys2Proof.Machine

/-- A flag as the byte `VF` takes. -/
def flagByte (b : Bool) : Byte := if b then 1 else 0

/-- The carry of `a + b`: 1 iff the sum exceeds 255 (R147). -/
def carryFlag (a b : Byte) : Byte := flagByte (decide (255 < a.toNat + b.toNat))

/-- No borrow in `a - b`: 1 iff the minuend is at least the subtrahend (R148). -/
def noBorrowFlag (a b : Byte) : Byte := flagByte (decide (b.toNat ≤ a.toNat))

/-- The bit that a right shift by one moves out, bit 0 (R149). -/
def lowBitFlag (b : Byte) : Byte := flagByte (b.getLsbD 0)

/-- The bit that a left shift by one moves out, bit 7 (R151). -/
def highBitFlag (b : Byte) : Byte := flagByte (b.getLsbD 7)

/-- A result to `V[x]`, then the flag to `VF`: with `x = 15` the flag is what remains (R140, decision D5;
UNVERIFIED, log 14). -/
def setResultFlag (x : RegIx) (r f : Byte) (s : State) : State := setV regVF f (setV x r s)

/-- The result of a logic operation, with what `P_LOGIC_VF` does to `VF` after it (R144, R145, R146, decision D6). -/
def setLogic (x : RegIx) (r : Byte) (s : State) : State :=
  match s.params.logicVf with
  | .unchanged => setV x r s
  | .cleared => setResultFlag x r 0 s

end Sys2Proof.Machine
end

