-- ==== Sys2Proof/Machine/Alu.lean ====
section
/-! DEFINITION. Register loads, the category 8 operations and the random byte (42_alu.md). Both operands are read
before any write (R140); every instruction is of class `Seq`. -/

namespace Sys2Proof.Machine

/-- `6XNN` (R141). -/
def execLdImm (x : RegIx) (nn : Byte) (s : State) : Host.Outcome State Fault Refusal :=
  .next (advance .seq (setV x nn s))

/-- `7XNN` (R142): modulo 256, no flag. -/
def execAddImm (x : RegIx) (nn : Byte) (s : State) : Host.Outcome State Fault Refusal :=
  .next (advance .seq (setV x (getV x s + nn) s))

/-- `8XY0` (R143). -/
def execLdReg (x y : RegIx) (s : State) : Host.Outcome State Fault Refusal :=
  .next (advance .seq (setV x (getV y s) s))

/-- `8XY1` (R144). -/
def execOrReg (x y : RegIx) (s : State) : Host.Outcome State Fault Refusal :=
  .next (advance .seq (setLogic x (getV x s ||| getV y s) s))

/-- `8XY2` (R145). -/
def execAndReg (x y : RegIx) (s : State) : Host.Outcome State Fault Refusal :=
  .next (advance .seq (setLogic x (getV x s &&& getV y s) s))

/-- `8XY3` (R146). -/
def execXorReg (x y : RegIx) (s : State) : Host.Outcome State Fault Refusal :=
  .next (advance .seq (setLogic x (getV x s ^^^ getV y s) s))

/-- `8XY4` (R147). -/
def execAddReg (x y : RegIx) (s : State) : Host.Outcome State Fault Refusal :=
  .next (advance .seq (setResultFlag x (getV x s + getV y s) (carryFlag (getV x s) (getV y s)) s))

/-- `8XY5` (R148). -/
def execSub (x y : RegIx) (s : State) : Host.Outcome State Fault Refusal :=
  .next (advance .seq (setResultFlag x (getV x s - getV y s) (noBorrowFlag (getV x s) (getV y s)) s))

/-- `8XY6` (R149). -/
def execShr (x y : RegIx) (s : State) : Host.Outcome State Fault Refusal :=
  .next (advance .seq (setResultFlag x (shiftSource x y s >>> 1) (lowBitFlag (shiftSource x y s)) s))

/-- `8XY7` (R150): the minuend is `V[y]`. -/
def execSubn (x y : RegIx) (s : State) : Host.Outcome State Fault Refusal :=
  .next (advance .seq (setResultFlag x (getV y s - getV x s) (noBorrowFlag (getV y s) (getV x s)) s))

/-- `8XYE` (R151). -/
def execShl (x y : RegIx) (s : State) : Host.Outcome State Fault Refusal :=
  .next (advance .seq (setResultFlag x (shiftSource x y s <<< 1) (highBitFlag (shiftSource x y s)) s))

/-- `CXNN` (R152): the step input `rnd` under the mask. -/
def execRnd (x : RegIx) (nn : Byte) (s : State) : Host.Outcome State Fault Refusal :=
  .next (advance .seq (setV x ((currentInput s).rnd &&& nn) s))

end Sys2Proof.Machine
end

