-- ==== Sys2Proof/Machine/ControlFlow.lean ====
section
/-! DEFINITION. Return, jump, call, the register skips, jump with offset (41_control_flow.md). -/

namespace Sys2Proof.Machine

/-- `00EE` (R120, R234). -/
def execRet (s : State) : Host.Outcome State Fault Refusal :=
  .next (match pop s with
    | none => raiseAt .ret .stackUnderflow s
    | some (target, s') => advance (.jump target) s')

/-- `1NNN` (R121). -/
def execJp (nnn : Addr) (s : State) : Host.Outcome State Fault Refusal :=
  .next (advance (.jump (zextAddr nnn)) s)

/-- `2NNN` (R122, R233). The value pushed is `(pc + 2) mod 0x10000`. -/
def execCall (nnn : Addr) (s : State) : Host.Outcome State Fault Refusal :=
  .next (match push (s.pc + 2) s with
    | none => raiseAt (.call nnn) .stackOverflow s
    | some s' => advance (.jump (zextAddr nnn)) s')

/-- `3XNN` (R123). -/
def execSeImm (x : RegIx) (nn : Byte) (s : State) : Host.Outcome State Fault Refusal :=
  .next (advance (.skip (decide (getV x s = nn))) s)

/-- `4XNN` (R124). -/
def execSneImm (x : RegIx) (nn : Byte) (s : State) : Host.Outcome State Fault Refusal :=
  .next (advance (.skip (decide (getV x s ≠ nn))) s)

/-- `5XY0` (R125). -/
def execSeReg (x y : RegIx) (s : State) : Host.Outcome State Fault Refusal :=
  .next (advance (.skip (decide (getV x s = getV y s))) s)

/-- `9XY0` (R126). -/
def execSneReg (x y : RegIx) (s : State) : Host.Outcome State Fault Refusal :=
  .next (advance (.skip (decide (getV x s ≠ getV y s))) s)

/-- `BNNN` (R127). -/
def execJpV0 (nnn : Addr) (s : State) : Host.Outcome State Fault Refusal :=
  .next (advance (.jump (offsetTarget nnn s)) s)

end Sys2Proof.Machine
end

