-- ==== Sys2Proof/Machine/Display.lean ====
section
/-! DEFINITION. Display clear and the sprite blitter (45_display.md; pixel addressing 10_state.md rule R36). -/

namespace Sys2Proof.Machine

/-- The framebuffer byte that holds a pixel: `row * 8 + col // 8` (R36). -/
def pixelByte (col row : Nat) : Nat := row * 8 + col / 8

/-- The bit of that byte: `7 - (col mod 8)`, the most significant bit leftmost (R36). -/
def pixelBit (col : Nat) : Nat := 7 - col % 8

/-- `Pix(col, row)` (R36); a pixel outside the 256 bytes is none (R205). -/
def pixel (fb : FrameBuffer) (col row : Nat) : Bool :=
  if h : pixelByte col row < 256 then fb[pixelByte col row].getLsbD (pixelBit col) else false

/-- `Pix(col, row) <- Pix(col, row) XOR 1`; a pixel outside the 256 bytes is discarded (R201, R205). -/
def togglePixel (fb : FrameBuffer) (col row : Nat) : FrameBuffer :=
  if h : pixelByte col row < 256 then
    fb.set (pixelByte col row) (fb[pixelByte col row] ^^^ (1#8 <<< pixelBit col))
  else fb

/-- A draw under way: the framebuffer and the collision found so far. -/
structure Blit where
  fb   : FrameBuffer
  coll : Bool
deriving DecidableEq, Repr

/-- One sprite bit that is 1 (R201): the pixel is toggled, and a pixel that was set is a collision (R203). -/
def drawPixel (col row : Nat) (p : Blit) : Blit :=
  { fb := togglePixel p.fb col row, coll := p.coll || pixel p.fb col row }

/-- The first `count` bits of a sprite row, from the leftmost, bit 7 (R201, R202); columns wrap (R204). A bit that
is 0 changes nothing. -/
def drawBits (bits : Byte) (x0 row : Nat) : Nat → Blit → Blit
  | 0, p => p
  | c + 1, p =>
    if bits.getLsbD (7 - c) then drawPixel ((x0 + c) % 64) row (drawBits bits x0 row c p)
    else drawBits bits x0 row c p

/-- The first `count` rows of a sprite whose row `r` is the byte at `base + r` (R201); rows wrap (R204, decision D18; UNVERIFIED, log
17). -/
def drawRows (m : Memory) (base x0 y0 : Nat) : Nat → Blit → Blit
  | 0, p => p
  | r + 1, p => drawBits (m.read (base + r)) x0 ((y0 + r) % 32) 8 (drawRows m base x0 y0 r p)

/-- `00E0` (R200). -/
def execCls (s : State) : Host.Outcome State Fault Refusal :=
  .next (advance .seq (setFb (Vector.replicate 256 0) s))

/-- The whole sprite of `DXYN` over the framebuffer of `s` (R201). -/
def drawSprite (x y : RegIx) (n : Nibble) (s : State) : Blit :=
  drawRows s.mem s.i.toNat (getV x s).toNat (getV y s).toNat n.toNat { fb := s.fb, coll := false }

/-- `DXYN` (R201): `VF` is written last, always, and once, for a sprite of no rows too (decision D19; UNVERIFIED, log
17). -/
def execDrw (x y : RegIx) (n : Nibble) (s : State) : Host.Outcome State Fault Refusal :=
  .next (if inRange s.i n.toNat then
      advance .seq (setV regVF (flagByte (drawSprite x y n s).coll) (setFb (drawSprite x y n s).fb s))
    else raiseAt (.drw x y n) .capacityFault s)

end Sys2Proof.Machine
end

