-- ==== Sys2Proof/Machine/Index.lean ====
section
/-! DEFINITION. The index register, BCD and the block transfers (43_index_memory.md). -/

namespace Sys2Proof.Machine

/-- `ANNN` (R160). -/
def execLdI (nnn : Addr) (s : State) : Host.Outcome State Fault Refusal :=
  .next (advance .seq (setI (zextAddr nnn) s))

/-- `FX1E` (R161): modulo 0x10000, no flag (decision D9; UNVERIFIED, log 15). -/
def execAddIVx (x : RegIx) (s : State) : Host.Outcome State Fault Refusal :=
  .next (advance .seq (setI (s.i + zextByte (getV x s)) s))

/-- `FX29` (R162). -/
def execLdFVx (x : RegIx) (s : State) : Host.Outcome State Fault Refusal :=
  .next (advance .seq (setI (glyphAddr (getV x s)) s))

/-- `FX33` (R163). -/
def execLdBVx (x : RegIx) (s : State) : Host.Outcome State Fault Refusal :=
  .next (if inRange s.i 3 then
      advance .seq (setMem (s.mem.writeBytes s.i.toNat (bcdDigits (getV x s))) s)
    else raiseAt (.ldBVx x) .capacityFault s)

/-- `FX55` (R164). -/
def execLdMemVx (x : RegIx) (s : State) : Host.Outcome State Fault Refusal :=
  .next (if inRange s.i (x.val + 1) then
      advance .seq (advanceI (x.val + 1) (setMem (s.mem.writeBytes s.i.toNat (regBytes x s)) s))
    else raiseAt (.ldMemVx x) .capacityFault s)

/-- `FX65` (R165). -/
def execLdVxMem (x : RegIx) (s : State) : Host.Outcome State Fault Refusal :=
  .next (if inRange s.i (x.val + 1) then
      advance .seq (advanceI (x.val + 1) (setRegs (loadRegs s.mem s.i.toNat (x.val + 1) s.v) s))
    else raiseAt (.ldVxMem x) .capacityFault s)

end Sys2Proof.Machine
end

