-- ==== Sys2Proof/Machine/TimersInput.lean ====
section
/-! DEFINITION. The timer instructions, the key-state skips and the wait for a key (44_timers_input.md). -/

namespace Sys2Proof.Machine

/-- `FX07` (R180): `DT` after this step's decrement. -/
def execLdVxDt (x : RegIx) (s : State) : Host.Outcome State Fault Refusal :=
  .next (advance .seq (setV x s.dt s))

/-- `FX15` (R181). -/
def execLdDtVx (x : RegIx) (s : State) : Host.Outcome State Fault Refusal :=
  .next (advance .seq (setDt (getV x s) s))

/-- `FX18` (R182). -/
def execLdStVx (x : RegIx) (s : State) : Host.Outcome State Fault Refusal :=
  .next (advance .seq (setSt (getV x s) s))

/-- `EX9E` (R183, R236; its sense is decision D12, UNVERIFIED, log 15). -/
def execSkp (x : RegIx) (s : State) : Host.Outcome State Fault Refusal :=
  .next (match buttonIndex (getV x s) with
    | none => raiseAt (.skp x) .invalidButtonIndex s
    | some k => advance (.skip (buttonDown k s)) s)

/-- `EXA1` (R184, R236; its sense is decision D12, UNVERIFIED, log 15). -/
def execSknp (x : RegIx) (s : State) : Host.Outcome State Fault Refusal :=
  .next (match buttonIndex (getV x s) with
    | none => raiseAt (.sknp x) .invalidButtonIndex s
    | some k => advance (.skip (!buttonDown k s)) s)

/-- `FX0A` (R185): no new press leaves the pc where it is, so that the instruction runs again. -/
def execLdVxK (x : RegIx) (s : State) : Host.Outcome State Fault Refusal :=
  .next (match leastBit (newPresses s) with
    | none => advance .stay s
    | some k => advance .seq (setV x (BitVec.ofNat 8 k) s))

end Sys2Proof.Machine
end

