-- ==== Sys2Proof/Machine/Step.lean ====
section
/-! DEFINITION. One step (40_cycle_engine.md rule R103) and the placing of one instruction where it fetches. -/

namespace Sys2Proof.Machine

/-- One step of R103, in order: the latch, the timers, fetch and decode, execute, the end of the step. -/
def step (s : State) : Host.Outcome State Fault Refusal :=
  if s.faulted then stuck
  else
    match fetchDecode (tickTimers s) with
    | .ok i => closeStep (exec i (tickTimers s))
    | .error s' => .next (endStep s')

/-- `s` with the opcode table's word stored at its `pc`, the high byte first (R51), for a `pc` up to 0xFFE. It
stands for the load of a program that holds the word there (R43; log 8). -/
def State.withFetchWord (s : State) (nbits w : Nat) : State :=
  setMem (s.mem.writeWord s.pc.toNat (tableWord nbits w)) s

end Sys2Proof.Machine
end

