-- ==== Sys2Proof/Machine/Load.lean ====
section
/-! DEFINITION. The initialisation port, which is also the only reset (10_state.md rule R43, 70_reset_and_hazards.md
rules R260 to R262). It is no step: the host calls it. -/

namespace Sys2Proof.Machine

/-- What `load` answers: a machine, or `CapacityFault` with the image's length and no machine (R230, R260). -/
inductive LoadOutcome where
  | loaded (s : State)
  | capacityFault (length : Nat)
deriving DecidableEq, Repr

/-- Where a program image begins (R41, R43). -/
def imageBase : Nat := 0x200

/-- Memory after a load: the font at 0x000, the image at 0x200, the rest 0 (R40). -/
def loadedMemory (font : Vector Byte 80) (image : List Byte) : Memory :=
  (Memory.writeBytes [] 0 font.toList).writeBytes imageBase image

/-- `load(program_bytes)` of R43, for a machine with font `P_FONT` and the parameters of R5. -/
def load (font : Vector Byte 80) (p : Params) (image : List Byte) : LoadOutcome :=
  if imageFits image then .loaded { State.reset with mem := loadedMemory font image, params := p }
  else .capacityFault image.length

end Sys2Proof.Machine
end

