-- ==== Sys2Proof/Safety.lean ====
section
/-! DEFINITION. What counts as a state a run may be in, and the end of a run (40_cycle_engine.md rule R114). -/

namespace Sys2Proof.Machine

/-- Is the last step's outcome a fault (R101)? -/
def outcomeIsFault (s : State) : Bool :=
  match s.outcome with
  | some (.fault _ _ _) => true
  | _ => false

/-- What every state of a run from a load satisfies: memory is in canonical form; the latch is set exactly when the
last outcome is a fault (R34); the pc is at most 0x10FE, the largest jump target (R106, R127); every stack entry is
at most 0x1000, the largest return address (R122). -/
def State.Inv (s : State) : Prop :=
  s.mem.wf = true ∧ s.faulted = outcomeIsFault s ∧ s.pc.toNat ≤ 0x10FE ∧
    ∀ k : Fin 16, s.stack[k].toNat ≤ 0x1000

/-- The instruction that a step of `s` decodes, if the fetch and the decoding succeed (R103). -/
def instrAt (s : State) : Option Instr :=
  match s.mem.fetch s.pc with
  | none => none
  | some op =>
    match decode op with
    | .ok i => some i
    | .error _ => none

/-- A spinning state (R114): the word at `pc` is a jump to itself. -/
def State.spinning (s : State) : Bool :=
  match instrAt s with
  | some (.jp nnn) => zextAddr nnn == s.pc
  | _ => false

/-- The end of a run (R114): the state is spinning or faulted. -/
def State.ended (s : State) : Bool := s.spinning || s.faulted

end Sys2Proof.Machine
end

