-- ==== Sys2Proof/Certificates/Slice0/Obligations.lean ====
section
/-! DEFINITION. The statements for the provers. Each docstring names the rule of spec/ it formalises; a statement
that rests on a passage the spec marks as its own decision or derivation, or on a choice of the model's log, says
so. The helpers before the statements are the words in which the statements are written. -/

namespace Sys2Proof.Claims

open Sys2Proof Sys2Proof.Machine

/-- The word of format `XNN` or `X`: the fixed bits, `x` in bits 11:8, `nn` in bits 7:0 (R71). -/
def wordXNN (fixed : Nat) (x : RegIx) (nn : Byte) : Word := BitVec.ofNat 16 (fixed + 256 * x.val + nn.toNat)

/-- The word of format `XY`: the fixed bits, `x` in bits 11:8, `y` in bits 7:4 (R71). -/
def wordXY (fixed : Nat) (x y : RegIx) : Word := BitVec.ofNat 16 (fixed + 256 * x.val + 16 * y.val)

/-- The word of format `NNN`: the fixed bits and `nnn` in bits 11:0 (R71). -/
def wordNNN (fixed : Nat) (nnn : Addr) : Word := BitVec.ofNat 16 (fixed + nnn.toNat)

/-- The state `s` with a fault taken: the latch and the outcome, nothing else (R109, R237). -/
def withFault (kind : FaultKind) (op : Option Word) (s : State) : State :=
  { s with faulted := true, outcome := some (.fault kind op s.pc) }

/-- The word that a step of `s` fetches: `M[pc] ++ M[pc + 1]` (R51). -/
def wordAt (s : State) : Word :=
  BitVec.ofNat 16 (256 * (s.mem.read s.pc.toNat).toNat + (s.mem.read (s.pc.toNat + 1)).toNat)

/-- The step after `s` has taken its inputs, the model's own bookkeeping (log 1). -/
def inputTaken (s t : State) : State := { t with inputs := s.inputs.tail, stepNo := s.stepNo + 1 }

/-- `t` is `s` but for general registers, after an instruction of class `Seq` that completed. -/
def onlyRegisters (s t : State) : Prop := t = { s with v := t.v, pc := s.pc + 2, outcome := some .completed }

/-- Every general register of `t` but those of `xs` holds what it held in `s`. -/
def registersKept (xs : List RegIx) (s t : State) : Prop := ∀ k : RegIx, k ∉ xs → t.v[k] = s.v[k]

/-- A flag bit as a number. -/
def bit (p : Prop) [Decidable p] : Nat := if p then 1 else 0

/-- The bytes of an access of `count` bytes at `I` all exist (R53). -/
def accessFits (s : State) (count : Nat) : Prop := s.i.toNat + count ≤ 0x1000

/-- The pixels that the 1-bits of a sprite cover: row `r` is the byte at `I + r`, its bit 7 leftmost, and every
pixel wraps (R202, R204). -/
def covered (x y : RegIx) (n : Nibble) (s : State) (col row : Nat) : Prop :=
  ∃ r < n.toNat, ∃ c < 8, (s.mem.read (s.i.toNat + r)).getLsbD (7 - c) = true ∧
    col = (s.v[x].toNat + c) % 64 ∧ row = (s.v[y].toNat + r) % 32

/-- The byte that `i`, executed in `s`, stores at address `a`: a digit of `FX33` (R163), a register of `FX55` (R164);
none where the access would pass 0xFFF, and none for any other instruction (R52). -/
def byteStored (i : Instr) (s : State) (a : Nat) : Option Byte :=
  match i with
  | .ldBVx x =>
    if s.i.toNat + 3 ≤ 0x1000 then
      if a = s.i.toNat then some (BitVec.ofNat 8 (s.v[x].toNat / 100))
      else if a = s.i.toNat + 1 then some (BitVec.ofNat 8 (s.v[x].toNat / 10 % 10))
      else if a = s.i.toNat + 2 then some (BitVec.ofNat 8 (s.v[x].toNat % 10))
      else none
    else none
  | .ldMemVx x =>
    if s.i.toNat + x.val + 1 ≤ 0x1000 ∧ s.i.toNat ≤ a ∧ a ≤ s.i.toNat + x.val then s.v.toList[a - s.i.toNat]?
    else none
  | _ => none

/-- What address `a` reads as after `i` is executed in `s`: the byte stored there, else what it read as before. -/
def byteAfter (i : Instr) (s : State) (a : Nat) : Byte := (byteStored i s a).getD (s.mem.read a)

/-- The byte that a step of `s` stores at address `a`, by the instruction at the `pc` (R103). -/
def storedByStep (s : State) (a : Nat) : Option Byte :=
  match instrAt s with
  | some i => byteStored i s a
  | none => none

/-- `u` is reached from `t` in so many steps, none of which stores to address `a`. -/
def reachedKeeping (a : Nat) (t : State) : Nat → State → Prop
  | 0, u => u = t
  | n + 1, u => ∃ m, reachedKeeping a t n m ∧ storedByStep m a = none ∧ step m = .next u

/-- The general register that an instruction has as its destination (R24); `FX65` has several, see there. -/
def destination : Instr → Option RegIx
  | .ldImm x _ | .addImm x _ | .ldReg x _ | .orReg x _ | .andReg x _ | .xorReg x _ | .addReg x _ | .sub x _
  | .shr x _ | .subn x _ | .shl x _ | .rnd x _ | .ldVxDt x | .ldVxK x => some x
  | _ => none

/-- Does the instruction write `VF` as a side effect (R22)? -/
def writesFlag (p : Params) : Instr → Bool
  | .addReg _ _ | .sub _ _ | .shr _ _ | .subn _ _ | .shl _ _ | .drw _ _ _ => true
  | .orReg _ _ | .andReg _ _ | .xorReg _ _ => p.logicVf == .cleared
  | _ => false

/-- The fault of an instruction's own check (R230, R239). -/
def instrFault (s : State) : Instr → Option FaultKind
  | .ret => if s.sp.val = 0 then some .stackUnderflow else none
  | .call _ => if s.sp.val = 16 then some .stackOverflow else none
  | .skp x | .sknp x => if 15 < s.v[x].toNat then some .invalidButtonIndex else none
  | .drw _ _ n => if 0 < n.toNat ∧ 0xFFF < s.i.toNat + n.toNat - 1 then some .capacityFault else none
  | .ldBVx _ => if 0xFFF < s.i.toNat + 2 then some .capacityFault else none
  | .ldMemVx x | .ldVxMem x => if 0xFFF < s.i.toNat + x.val then some .capacityFault else none
  | _ => none

/-- The fault that a step of `s` takes, by the causes of R230 in the order of R239. -/
def faultDue (s : State) : Option FaultKind :=
  if 0xFFE < s.pc.toNat then some .capacityFault
  else
    match decode (wordAt s) with
    | .error _ => some .decodeFault
    | .ok i => instrFault s i

/-- Where the pc stands after a step of `s` that runs `i` without a fault, as a number (R106, R110). -/
def pcAfter (i : Instr) (s : State) : Nat :=
  match i with
  | .jp nnn | .call nnn => nnn.toNat
  | .jpV0 nnn => nnn.toNat + s.v[(0 : Fin 16)].toNat
  | .ret => (s.stack.toList.getD (s.sp.val - 1) 0).toNat
  | .seImm x nn => s.pc.toNat + (if s.v[x] = nn then 4 else 2)
  | .sneImm x nn => s.pc.toNat + (if s.v[x] = nn then 2 else 4)
  | .seReg x y => s.pc.toNat + (if s.v[x] = s.v[y] then 4 else 2)
  | .sneReg x y => s.pc.toNat + (if s.v[x] = s.v[y] then 2 else 4)
  | .skp x => s.pc.toNat + (if (currentInput s).keys.getLsbD s.v[x].toNat then 4 else 2)
  | .sknp x => s.pc.toNat + (if (currentInput s).keys.getLsbD s.v[x].toNat then 2 else 4)
  | .ldVxK _ => s.pc.toNat + (if (currentInput s).keys &&& ~~~ s.prevKeys = 0 then 0 else 2)
  | _ => s.pc.toNat + 2

end Sys2Proof.Claims

open Sys2Proof Sys2Proof.Machine Sys2Proof.Claims

/-! ## Encoding -/

/-- Words written out from the patterns of 30_encoding.md rule R75, at least one of every family, decode to the
instructions they stand for. -/
def Obligations.WordsOfEveryFamilyDecode : Prop :=
  decode 0x00E0 = .ok .cls ∧ decode 0x00EE = .ok .ret ∧ decode 0x1234 = .ok (.jp 0x234) ∧
  decode 0x3310 = .ok (.seImm 3 0x10) ∧ decode 0x5120 = .ok (.seReg 1 2) ∧ decode 0x6A07 = .ok (.ldImm 0xA 0x07) ∧
  decode 0x8FE4 = .ok (.addReg 0xF 0xE) ∧ decode 0x812E = .ok (.shl 1 2) ∧ decode 0xBF01 = .ok (.jpV0 0xF01) ∧
  decode 0xD34F = .ok (.drw 3 4 0xF) ∧ decode 0xE19E = .ok (.skp 1) ∧ decode 0xF50A = .ok (.ldVxK 5) ∧
  decode 0xF265 = .ok (.ldVxMem 2)

/-- Decoding an encoded instruction gives it back, every operand at every value, from the word and from its two
bytes in memory order (R70, R71, R75). -/
def Obligations.DecodeOfEncodeIsTheInstruction : Prop :=
  ∀ (i : Instr) (rest : List Byte), decode (encode i) = .ok i ∧ decodeBytes (encodeBytes i ++ rest) = .ok (i, rest)

/-- Encoding a decoded instruction gives its word back: no bit of a legal word is ignored (the spec's derived rule
R78). -/
def Obligations.EncodeOfDecodeIsTheWord : Prop :=
  ∀ (op : Word) (i : Instr), decode op = .ok i → encode i = op

/-- The words that are no instruction are exactly the six sets of R77's table, which rests on the spec's decision
D4; every other word is one. -/
def Obligations.IllegalWordsAreExactlyTheTable : Prop :=
  ∀ op : Word,
    (decode op = .error (.undefinedWord op) ↔
      (op.toNat / 4096 = 0x0 ∧ op ≠ 0x00E0 ∧ op ≠ 0x00EE) ∨
      (op.toNat / 4096 = 0x5 ∧ op.toNat % 16 ≠ 0) ∨
      (op.toNat / 4096 = 0x8 ∧ op.toNat % 16 ∈ [0x8, 0x9, 0xA, 0xB, 0xC, 0xD, 0xF]) ∨
      (op.toNat / 4096 = 0x9 ∧ op.toNat % 16 ≠ 0) ∨
      (op.toNat / 4096 = 0xE ∧ op.toNat % 256 ∉ [0x9E, 0xA1]) ∨
      (op.toNat / 4096 = 0xF ∧ op.toNat % 256 ∉ [0x07, 0x0A, 0x15, 0x18, 0x1E, 0x29, 0x33, 0x55, 0x65])) ∧
    (decode op ≠ .error (.undefinedWord op) → ∃ i, decode op = .ok i)

/-- A word decodes to an instruction exactly when it matches a row of R75's table, and then it matches that
instruction's row and no other (the last is the spec's derivation beside R75). -/
def Obligations.DecodingSelectsTheOneTableRow : Prop :=
  ∀ op : Word,
    (wordDefined op = true → ∃ i, decode op = .ok i) ∧
    (∀ i, decode op = .ok i → (opcodeRow i).covers op = true ∧
      ∀ r ∈ opcodeRows, r.covers op = true → r = opcodeRow i)

/-! ## The step -/

/-- A step runs the decoded instruction (R103): the bytes at `pc` decode to `i`, so the step is `exec i` on the
state after the timer decrement, which always answers a next state; then `prevKeys` is recorded unless a fault was
taken, and the step's inputs are used up (the last is the model's own, log 1). -/
def Obligations.StepRunsTheDecodedInstruction : Prop :=
  ∀ (s : State) (i : Instr), s.faulted = false → s.pc.toNat ≤ 0xFFE → decode (wordAt s) = .ok i →
    ∃ t, exec i (tickTimers s) = .next t ∧
      step s = .next (inputTaken s
        { t with prevKeys := if t.faulted then t.prevKeys else (currentInput s).keys })

/-- A fetch that would pass address 0xFFF faults, with no opcode and no wrap (R51, the spec's decision D15). -/
def Obligations.FetchPastMemoryIsACapacityFault : Prop :=
  ∀ s : State, s.faulted = false → 0xFFE < s.pc.toNat →
    step s = .next (inputTaken s (withFault .capacityFault none (tickTimers s)))

/-- A word that is no instruction is a decode fault after the fetch and before any effect of an instruction (R232):
the step decrements the timers and takes the fault, with the word and the `pc`, and does nothing else. That the
decrement stays, and what the fault records, are the spec's decisions D20, D29 and D30. -/
def Obligations.UndefinedWordIsADecodeFault : Prop :=
  ∀ s : State, s.faulted = false → s.pc.toNat ≤ 0xFFE → (∀ i, decode (wordAt s) ≠ .ok i) →
    step s = .next (inputTaken s (withFault .decodeFault (some (wordAt s)) (tickTimers s)))

/-- The machine has a step exactly while the latch is clear; with the latch set it is stuck (R34 and R102, which
follow the spec's decision D20), and no step refuses an instruction. -/
def Obligations.StepExistsExactlyWhileNotFaulted : Prop :=
  ∀ s : State,
    (s.faulted = false → ∃ t, step s = .next t) ∧
    (s.faulted = true → step s = .fault .stepAfterFault)

/-- A faulting step writes the timer decrement, the latch and the outcome, and nothing else; the outcome carries
the word fetched, or none where the fetch itself faulted, and the `pc` of the step (R101 and R109, which follow the
spec's decisions D20, D29, D30; the inputs used up are the model's own, log 1). -/
def Obligations.FaultingStepWritesOnlyTimersAndLatch : Prop :=
  ∀ s t : State, step s = .next t → t.faulted = true →
    ∃ kind, t = inputTaken s (withFault kind (if 0xFFE < s.pc.toNat then none else some (wordAt s)) (tickTimers s))

/-- A step faults exactly on the causes of R230, checked in the order fetch, decode, instruction, and with the kind
of its cause; no step reports an invalid register index (R231). The order is the spec's decision D22, the fetch and
sprite causes D15 and D16. -/
def Obligations.StepFaultsExactlyOnItsCauses : Prop :=
  ∀ s t : State, step s = .next t →
    match faultDue s with
    | none => t.faulted = false ∧ outcomeIsFault t = false
    | some kind => t.faulted = true ∧ (∃ op, t.outcome = some (.fault kind op s.pc)) ∧ kind ≠ .invalidRegisterIndex

/-- Every step whose outcome is `Completed` or `HaltedAwaitingInput` records its bitmask, after the instruction
executed, so that `FX0A` compares with the bitmask of the step before (R108). -/
def Obligations.NonFaultingStepRecordsTheBitmask : Prop :=
  ∀ s t : State, step s = .next t → t.outcome = some .completed ∨ t.outcome = some .haltedAwaitingInput →
    t.prevKeys = (currentInput s).keys ∧
    ∀ x, instrAt s = some (.ldVxK x) →
      (t.outcome = some .haltedAwaitingInput ↔ (currentInput s).keys &&& ~~~ s.prevKeys = 0)

/-- The pc after a step: 2 more, except a jump or call (its target), a taken skip (4 more), the unmet wait for a key
(unchanged), a return (the popped address), a jump with offset (its target) and a faulting step (unchanged)
(R106, R110). The return, the jump with offset and the faulting step are what the spec adds to the source's list
(90_conflicts.md C9), that no advance wraps is its derivation in R106, and which of `EX9E` (R183) and `EXA1` (R184)
skips when the button is down is its decision D12 (log 15). -/
def Obligations.StepMovesThePcByItsClass : Prop :=
  ∀ s t : State, step s = .next t →
    (t.faulted = true → t.pc = s.pc) ∧
    (t.faulted = false → ∃ i, instrAt s = some i ∧ t.pc.toNat = pcAfter i s)

/-- Each step decrements each timer by one if the input `tick` is set, never below zero, and no step else changes
them but `FX15` and `FX18`, which write a register's value over the decrement; a faulting step keeps the decrement
(R186, whose input `tick` is the spec's decision D14). -/
def Obligations.TimersCountDownOncePerTick : Prop :=
  ∀ s t : State, step s = .next t →
    ((∀ x, instrAt s ≠ some (.ldDtVx x)) →
      t.dt.toNat = s.dt.toNat - bit ((currentInput s).tick = true)) ∧
    ((∀ x, instrAt s ≠ some (.ldStVx x)) →
      t.st.toNat = s.st.toNat - bit ((currentInput s).tick = true)) ∧
    (∀ x, instrAt s = some (.ldDtVx x) → t.dt = s.v[x]) ∧
    (∀ x, instrAt s = some (.ldStVx x) → t.st = s.v[x])

/-- The framebuffer is mutated only by the clear-screen and sprite-draw operations (R37). -/
def Obligations.FramebufferChangesOnlyByClearAndDraw : Prop :=
  ∀ s t : State, step s = .next t → instrAt s ≠ some .cls → (∀ x y n, instrAt s ≠ some (.drw x y n)) → t.fb = s.fb

/-- No instruction but call and return reaches the stack or its pointer, and a return leaves the entries as they are
(R27, R28; R28 is the spec's derivation). -/
def Obligations.StackChangesOnlyByCallAndReturn : Prop :=
  ∀ s t : State, step s = .next t → (∀ nnn, instrAt s ≠ some (.call nnn)) →
    t.stack = s.stack ∧ (instrAt s ≠ some .ret → t.sp = s.sp)

/-- No instruction but `FX33` and `FX55` writes memory (R52, the spec's derivation). -/
def Obligations.MemoryChangesOnlyByBcdAndStore : Prop :=
  ∀ s t : State, step s = .next t → (∀ x, instrAt s ≠ some (.ldBVx x)) → (∀ x, instrAt s ≠ some (.ldMemVx x)) →
    t.mem = s.mem

/-- The instructions that write `VF` as a side effect are exactly those of R22: each of them leaves a flag, 0 or 1,
`8XY1` to `8XY3` leave 0 when `P_LOGIC_VF = Cleared` (the parameter is the spec's decision D6), and every other
instruction leaves `VF` unless it names it as a destination. -/
def Obligations.FlagIsWrittenExactlyByItsInstructions : Prop :=
  ∀ (i : Instr) (s t : State), s.faulted = false → exec i s = .next t →
    (writesFlag s.params i = true → t.faulted = false →
      t.v[(15 : Fin 16)] = 0 ∨ t.v[(15 : Fin 16)] = 1) ∧
    (∀ x y, i = .orReg x y ∨ i = .andReg x y ∨ i = .xorReg x y → s.params.logicVf = .cleared →
      t.v[(15 : Fin 16)] = 0) ∧
    (writesFlag s.params i = false → destination i ≠ some 15 → i ≠ .ldVxMem 15 →
      t.v[(15 : Fin 16)] = s.v[(15 : Fin 16)])

/-- A general register changes only as an instruction's destination, as the flag, or as one of `V[0]`..`V[x]` of
`FX65` (R24, the spec's derivation). -/
def Obligations.RegistersChangeOnlyByTheirWriters : Prop :=
  ∀ (i : Instr) (s t : State) (k : RegIx), exec i s = .next t → t.v[k] ≠ s.v[k] →
    destination i = some k ∨ (writesFlag s.params i = true ∧ k = 15) ∨ ∃ x, i = .ldVxMem x ∧ k ≤ x

/-- `I` is written by `ANNN`, `FX1E`, `FX29` and, with `P_LDST_I = Advance`, by `FX55` and `FX65`, each with the
value R25 gives; no other instruction and no fault writes it, and no value of it is a fault of its own (R25). -/
def Obligations.IndexChangesOnlyByItsWriters : Prop :=
  ∀ (i : Instr) (s t : State), s.faulted = false → exec i s = .next t →
    match i with
    | .ldI nnn => t.faulted = false ∧ t.i.toNat = nnn.toNat
    | .addIVx x => t.faulted = false ∧ t.i.toNat = (s.i.toNat + s.v[x].toNat) % 0x10000
    | .ldFVx x => t.faulted = false ∧ t.i.toNat = 5 * (s.v[x].toNat % 16)
    | .ldMemVx x | .ldVxMem x =>
      if s.params.ldstI = .advance ∧ t.faulted = false then t.i.toNat = (s.i.toNat + x.val + 1) % 0x10000
      else t.i = s.i
    | _ => t.i = s.i

/-- Each step takes exactly one step's inputs and leaves the machine's parameters (R13, R100; that inputs and
parameters are held in the state, and how, is the model's own, logs 1 and 2). -/
def Obligations.StepTakesOneInputAndKeepsParameters : Prop :=
  ∀ s t : State, step s = .next t →
    t.params = s.params ∧ t.inputs = s.inputs.tail ∧ t.stepNo = s.stepNo + 1

/-! ## Invariants -/

/-- The state after reset satisfies the invariant (R40). -/
def Obligations.ResetSatisfiesTheInvariant : Prop := State.reset.Inv

/-- Every load that is accepted gives a state that satisfies the invariant, whatever font, parameters and image. -/
def Obligations.LoadSatisfiesTheInvariant : Prop :=
  ∀ (font : Vector Byte 80) (p : Params) (image : List Byte) (s : State), load font p image = .loaded s → s.Inv

/-- Every step keeps the invariant: memory in canonical form and inside 0x000-0xFFF, the latch equal to the outcome
being a fault, the pc at most 0x10FE (R106, R127), every stack entry at most 0x1000 (R122). -/
def Obligations.StepKeepsTheInvariant : Prop :=
  ∀ s t : State, s.Inv → step s = .next t → t.Inv

/-! ## Reset, load, the end of a run -/

/-- Every piece of state after reset holds the value of R40's table, with the default font of R42 in memory. The
values but those of `pc` and the timers are the spec's decisions D20, D23 and D24; the outcome, the parameters and the
input fields are the model's own (logs 1 to 3). -/
def Obligations.ResetHoldsTheTableOfValues : Prop :=
  State.reset.pc = 0x200 ∧ State.reset.dt = 0 ∧ State.reset.st = 0 ∧ State.reset.i = 0 ∧ State.reset.sp = 0 ∧
  State.reset.prevKeys = 0 ∧ State.reset.faulted = false ∧
  (∀ k : Fin 16, State.reset.v[k] = 0) ∧ (∀ k : Fin 16, State.reset.stack[k] = 0) ∧
  (∀ k : Fin 256, State.reset.fb[k] = 0) ∧
  (∀ a, 0x050 ≤ a → a < 0x1000 → State.reset.mem.read a = 0) ∧
  (List.range 40).map (fun a => State.reset.mem.read a) =
    [0xF0, 0x90, 0x90, 0x90, 0xF0] ++ [0x20, 0x60, 0x20, 0x20, 0x70] ++ [0xF0, 0x10, 0xF0, 0x80, 0xF0] ++
    [0xF0, 0x10, 0xF0, 0x10, 0xF0] ++ [0x90, 0x90, 0xF0, 0x10, 0x10] ++ [0xF0, 0x80, 0xF0, 0x10, 0xF0] ++
    [0xF0, 0x80, 0xF0, 0x90, 0xF0] ++ [0xF0, 0x10, 0x20, 0x40, 0x40] ∧
  (List.range 40).map (fun a => State.reset.mem.read (40 + a)) =
    [0xF0, 0x90, 0xF0, 0x90, 0xF0] ++ [0xF0, 0x90, 0xF0, 0x10, 0xF0] ++ [0xF0, 0x90, 0xF0, 0x90, 0x90] ++
    [0xE0, 0x90, 0xE0, 0x90, 0xE0] ++ [0xF0, 0x80, 0x80, 0x80, 0xF0] ++ [0xE0, 0x90, 0x90, 0x90, 0xE0] ++
    [0xF0, 0x80, 0xF0, 0x80, 0xF0] ++ [0xF0, 0x80, 0xF0, 0x80, 0x80]

/-- The reset entry point is 0x200 and the first step fetches the word at 0x200-0x201, whatever is loaded: there is
no reset vector (R41). -/
def Obligations.FirstFetchIsAtTheEntryPoint : Prop :=
  State.reset.pc = 0x200 ∧
  ∀ (font : Vector Byte 80) (p : Params) (image : List Byte) (s : State), load font p image = .loaded s →
    s.pc = 0x200 ∧ s.faulted = false ∧ s.mem.fetch s.pc = some (bigEndian (s.mem.read 0x200) (s.mem.read 0x201))

/-- The load port: an image longer than 3584 bytes fails with its length and creates no machine; any other gives the
state of R40 with the font in the low bytes, the image from 0x200 on, and 0 elsewhere (R43). -/
def Obligations.LoadPlacesFontAndImage : Prop :=
  ∀ (font : Vector Byte 80) (p : Params) (image : List Byte),
    (3584 < image.length → load font p image = .capacityFault image.length) ∧
    (image.length ≤ 3584 → ∃ s, load font p image = .loaded s ∧
      s = { State.reset with mem := s.mem, params := p } ∧
      (∀ k : Fin 80, s.mem.read k.val = font[k]) ∧
      (∀ a, 80 ≤ a → a < 0x200 → s.mem.read a = 0) ∧
      (∀ k, (h : k < image.length) → s.mem.read (0x200 + k) = image[k]) ∧
      (∀ a, 0x200 + image.length ≤ a → a < 0x1000 → s.mem.read a = 0))

/-- The model's reset state is what the load port gives for an empty image, the default font and the default
parameters (R40, R43; the defaults are the spec's decisions D6, D7, D8, D24). -/
def Obligations.ResetIsTheLoadOfAnEmptyImage : Prop :=
  ∀ font : Vector Byte 80, font.toList = defaultFont → load font defaultParams [] = .loaded State.reset

/-- In a spinning state every step changes only the timers and `prevKeys` (and the outcome and the inputs, which are
the model's own) and the state goes on spinning (R114, the spec's decision D27). -/
def Obligations.SpinningStateChangesOnlyTimersAndKeys : Prop :=
  ∀ s : State, s.spinning = true → s.faulted = false →
    ∃ t, step s = .next t ∧ t.spinning = true ∧
      t = { s with
        dt := t.dt, st := t.st, prevKeys := (currentInput s).keys, outcome := some .completed,
        inputs := s.inputs.tail, stepNo := s.stepNo + 1 }

/-! ## Control flow -/

/-- `00EE` (R120, R234): with the stack empty it faults and writes nothing; else `SP` is one less, the pc is the
entry popped, and everything else, the entry too, is unchanged. -/
def Obligations.ReturnPopsOrUnderflows : Prop :=
  decode 0x00EE = .ok .ret ∧
  (∀ s : State, s.sp.val = 0 → exec .ret s = .next (withFault .stackUnderflow (some 0x00EE) s)) ∧
  (∀ (s : State) (k : Fin 16), s.sp.val = k.val + 1 →
    exec .ret s = .next { s with sp := k.castSucc, pc := s.stack[k], outcome := some .completed })

/-- `2NNN` (R122, R233): with 16 entries in use it faults and writes nothing; else the entry at `SP` is
`(pc + 2) mod 0x10000`, `SP` is one more, the pc is `nnn`, and everything else is unchanged. -/
def Obligations.CallPushesOrOverflows : Prop :=
  ∀ nnn : Addr,
    decode (wordNNN 0x2000 nnn) = .ok (.call nnn) ∧
    (∀ s : State, s.sp.val = 16 → exec (.call nnn) s = .next (withFault .stackOverflow (some (wordNNN 0x2000 nnn)) s)) ∧
    (∀ (s : State) (k : Fin 16), s.sp.val = k.val →
      ∃ t, exec (.call nnn) s = .next t ∧
        t = { s with stack := t.stack, sp := k.succ, pc := BitVec.ofNat 16 nnn.toNat, outcome := some .completed } ∧
        ∀ j : Fin 16, t.stack[j].toNat = if j = k then (s.pc.toNat + 2) % 0x10000 else s.stack[j].toNat)

/-- A return undoes a call: after a call that pushed, and whatever ran in between that left the stack as the call
left it, a return resumes at the word after the call with `SP` as before it (R120, R122, example of R122). -/
def Obligations.ReturnResumesAfterTheCall : Prop :=
  ∀ (nnn : Addr) (s : State), s.sp.val < 16 →
    ∃ t, exec (.call nnn) s = .next t ∧
      ∀ u : State, u.stack = t.stack → u.sp = t.sp →
        ∃ w, exec .ret u = .next w ∧ w.pc = s.pc + 2 ∧ w.sp = s.sp ∧ w.stack = t.stack

/-- `1NNN` (R121) and `BNNN` (R127): the pc is `nnn`, respectively `nnn + V[0]` with no truncation to 12 bits, and
nothing else changes. -/
def Obligations.JumpsSetThePc : Prop :=
  ∀ (nnn : Addr) (s : State),
    decode (wordNNN 0x1000 nnn) = .ok (.jp nnn) ∧ decode (wordNNN 0xB000 nnn) = .ok (.jpV0 nnn) ∧
    (∃ t, exec (.jp nnn) s = .next t ∧ t.pc.toNat = nnn.toNat ∧
      t = { s with pc := t.pc, outcome := some .completed }) ∧
    (∃ t, exec (.jpV0 nnn) s = .next t ∧ t.pc.toNat = nnn.toNat + s.v[(0 : Fin 16)].toNat ∧
      t = { s with pc := t.pc, outcome := some .completed })

/-- `3XNN` (R123), `4XNN` (R124): the pc advances by 4 if the comparison holds, else by 2, and nothing else
changes. -/
def Obligations.ImmediateSkipsCompareARegister : Prop :=
  ∀ (x : RegIx) (nn : Byte) (s : State),
    decode (wordXNN 0x3000 x nn) = .ok (.seImm x nn) ∧ decode (wordXNN 0x4000 x nn) = .ok (.sneImm x nn) ∧
    exec (.seImm x nn) s =
      .next { s with pc := s.pc + (if s.v[x] = nn then 4 else 2), outcome := some .completed } ∧
    exec (.sneImm x nn) s =
      .next { s with pc := s.pc + (if s.v[x] = nn then 2 else 4), outcome := some .completed }

/-- `5XY0` (R125), `9XY0` (R126): the pc advances by 4 if the comparison holds, else by 2, and nothing else changes;
a word of either category with a non-zero low nibble is no instruction (the spec's decision D4). -/
def Obligations.RegisterSkipsCompareTwoRegisters : Prop :=
  ∀ (x y : RegIx) (s : State),
    decode (wordXY 0x5000 x y) = .ok (.seReg x y) ∧ decode (wordXY 0x9000 x y) = .ok (.sneReg x y) ∧
    (∀ n, 0 < n → n < 16 → (∀ i, decode (wordXY (0x5000 + n) x y) ≠ .ok i) ∧
      ∀ i, decode (wordXY (0x9000 + n) x y) ≠ .ok i) ∧
    exec (.seReg x y) s =
      .next { s with pc := s.pc + (if s.v[x] = s.v[y] then 4 else 2), outcome := some .completed } ∧
    exec (.sneReg x y) s =
      .next { s with pc := s.pc + (if s.v[x] = s.v[y] then 2 else 4), outcome := some .completed }

/-! ## Loads and ALU -/

/-- `6XNN` (R141) and `7XNN` (R142): `V[x]` is `nn`, respectively the sum modulo 256 with no flag (also for
`x = 15`); nothing else changes. -/
def Obligations.ImmediateLoadAndAdd : Prop :=
  ∀ (x : RegIx) (nn : Byte) (s : State),
    decode (wordXNN 0x6000 x nn) = .ok (.ldImm x nn) ∧ decode (wordXNN 0x7000 x nn) = .ok (.addImm x nn) ∧
    (∃ t, exec (.ldImm x nn) s = .next t ∧ onlyRegisters s t ∧ registersKept [x] s t ∧ t.v[x] = nn) ∧
    (∃ t, exec (.addImm x nn) s = .next t ∧ onlyRegisters s t ∧ registersKept [x] s t ∧
      t.v[x].toNat = (s.v[x].toNat + nn.toNat) % 256)

/-- `8XY0` (R143, the spec's decision D2): `V[x]` takes `V[y]`, no flag, and nothing else changes. -/
def Obligations.MoveCopiesARegister : Prop :=
  ∀ (x y : RegIx) (s : State),
    decode (wordXY 0x8000 x y) = .ok (.ldReg x y) ∧
    ∃ t, exec (.ldReg x y) s = .next t ∧ onlyRegisters s t ∧ registersKept [x] s t ∧ t.v[x] = s.v[y]

/-- `8XY1`, `8XY2`, `8XY3` (R144 to R146): `V[x]` is the OR, AND, XOR of the old `V[x]` and `V[y]`, bit by bit; with
`P_LOGIC_VF = Cleared` `VF` is 0 after it, with `Unchanged` it is left (the spec's decision D6); nothing else
changes. -/
def Obligations.LogicOperations : Prop :=
  ∀ (x y : RegIx) (s : State),
    decode (wordXY 0x8001 x y) = .ok (.orReg x y) ∧ decode (wordXY 0x8002 x y) = .ok (.andReg x y) ∧
    decode (wordXY 0x8003 x y) = .ok (.xorReg x y) ∧
    ∀ (i : Instr) (f : Bool → Bool → Bool),
      (i = .orReg x y ∧ f = or) ∨ (i = .andReg x y ∧ f = and) ∨ (i = .xorReg x y ∧ f = xor) →
      ∃ t, exec i s = .next t ∧ onlyRegisters s t ∧
        (s.params.logicVf = .unchanged → registersKept [x] s t ∧
          ∀ b < 8, t.v[x].getLsbD b = f (s.v[x].getLsbD b) (s.v[y].getLsbD b)) ∧
        (s.params.logicVf = .cleared → registersKept [x, 15] s t ∧ t.v[(15 : Fin 16)] = 0 ∧
          (x ≠ 15 → ∀ b < 8, t.v[x].getLsbD b = f (s.v[x].getLsbD b) (s.v[y].getLsbD b)))

/-- `8XY4` (R147): `V[x]` is the sum modulo 256 and `VF` the carry, 1 iff the sum exceeds 255; with `x = 15` the
carry is what remains (the order of the two writes is the spec's decision D5); both operands are those before the
instruction; nothing else changes. -/
def Obligations.AddWritesSumAndCarry : Prop :=
  ∀ (x y : RegIx) (s : State),
    decode (wordXY 0x8004 x y) = .ok (.addReg x y) ∧
    ∃ t, exec (.addReg x y) s = .next t ∧ onlyRegisters s t ∧ registersKept [x, 15] s t ∧
      t.v[(15 : Fin 16)].toNat = bit (255 < s.v[x].toNat + s.v[y].toNat) ∧
      (x ≠ 15 → t.v[x].toNat = (s.v[x].toNat + s.v[y].toNat) % 256)

/-- `8XY5` (R148) and `8XY7` (R150): `V[x]` is `V[x] - V[y]`, respectively `V[y] - V[x]`, modulo 256, and `VF` is 1
iff the minuend is at least the subtrahend; with `x = 15` the flag is what remains (the spec's decision D5); nothing
else changes. -/
def Obligations.SubtractWritesDifferenceAndNoBorrow : Prop :=
  ∀ (x y : RegIx) (s : State),
    decode (wordXY 0x8005 x y) = .ok (.sub x y) ∧ decode (wordXY 0x8007 x y) = .ok (.subn x y) ∧
    (∃ t, exec (.sub x y) s = .next t ∧ onlyRegisters s t ∧ registersKept [x, 15] s t ∧
      t.v[(15 : Fin 16)].toNat = bit (s.v[y].toNat ≤ s.v[x].toNat) ∧
      (x ≠ 15 → (t.v[x].toNat : Int) = ((s.v[x].toNat : Int) - s.v[y].toNat) % 256)) ∧
    (∃ t, exec (.subn x y) s = .next t ∧ onlyRegisters s t ∧ registersKept [x, 15] s t ∧
      t.v[(15 : Fin 16)].toNat = bit (s.v[x].toNat ≤ s.v[y].toNat) ∧
      (x ≠ 15 → (t.v[x].toNat : Int) = ((s.v[y].toNat : Int) - s.v[x].toNat) % 256))

/-- `8XY6` (R149) and `8XYE` (R151): the source, `V[x]` or `V[y]` by `P_SHIFT_SRC` (the spec's decision D7), is
shifted by one into `V[x]`, and `VF` is the bit shifted out; with `x = 15` the flag is what remains (decision D5);
nothing else changes. -/
def Obligations.ShiftsWriteResultAndBitOut : Prop :=
  ∀ (x y : RegIx) (s : State) (src : Byte),
    decode (wordXY 0x8006 x y) = .ok (.shr x y) ∧ decode (wordXY 0x800E x y) = .ok (.shl x y) ∧
    (src = (if s.params.shiftSrc = .x then s.v[x] else s.v[y]) →
      (∃ t, exec (.shr x y) s = .next t ∧ onlyRegisters s t ∧ registersKept [x, 15] s t ∧
        t.v[(15 : Fin 16)].toNat = src.toNat % 2 ∧ (x ≠ 15 → t.v[x].toNat = src.toNat / 2)) ∧
      (∃ t, exec (.shl x y) s = .next t ∧ onlyRegisters s t ∧ registersKept [x, 15] s t ∧
        t.v[(15 : Fin 16)].toNat = src.toNat / 128 ∧ (x ≠ 15 → t.v[x].toNat = 2 * src.toNat % 256)))

/-- `CXNN` (R152): `V[x]` is the step's random byte under the mask `nn`, whatever that byte is (the input `rnd` is
the spec's decision D13); no flag, and nothing else changes. -/
def Obligations.RandomByteIsMasked : Prop :=
  ∀ (x : RegIx) (nn : Byte) (s : State),
    decode (wordXNN 0xC000 x nn) = .ok (.rnd x nn) ∧
    ∃ t, exec (.rnd x nn) s = .next t ∧ onlyRegisters s t ∧ registersKept [x] s t ∧
      ∀ b < 8, t.v[x].getLsbD b = ((currentInput s).rnd.getLsbD b && nn.getLsbD b)

/-! ## Index, BCD, block transfer -/

/-- `ANNN` (R160): `I` is `nnn`, and nothing else changes. -/
def Obligations.SetIndexLoadsTheAddress : Prop :=
  ∀ (nnn : Addr) (s : State),
    decode (wordNNN 0xA000 nnn) = .ok (.ldI nnn) ∧
    ∃ t, exec (.ldI nnn) s = .next t ∧ t.i.toNat = nnn.toNat ∧
      t = { s with i := t.i, pc := s.pc + 2, outcome := some .completed }

/-- `FX1E` (R161): `I` is `(I + V[x]) mod 0x10000`, with no flag (the spec's decision D9); `FX29` (R162): `I` is the
glyph address of the low nibble of `V[x]` (decision D10); nothing else changes. -/
def Obligations.IndexArithmetic : Prop :=
  ∀ (x : RegIx) (s : State),
    decode (wordXNN 0xF000 x 0x1E) = .ok (.addIVx x) ∧ decode (wordXNN 0xF000 x 0x29) = .ok (.ldFVx x) ∧
    (∃ t, exec (.addIVx x) s = .next t ∧ t.i.toNat = (s.i.toNat + s.v[x].toNat) % 0x10000 ∧
      t = { s with i := t.i, pc := s.pc + 2, outcome := some .completed }) ∧
    (∃ t, exec (.ldFVx x) s = .next t ∧ t.i.toNat = 5 * (s.v[x].toNat % 16) ∧
      t = { s with i := t.i, pc := s.pc + 2, outcome := some .completed })

/-- `FX33` (R163): the hundreds, tens and ones digits of `V[x]` are stored at `I`, `I + 1`, `I + 2`, every other byte
and all other state is unchanged; an access past 0xFFF is a capacity fault with no byte written. Memory in canonical
form is the premise of what the stored bytes read as. -/
def Obligations.BcdStoresThreeDigits : Prop :=
  ∀ (x : RegIx) (s : State),
    decode (wordXNN 0xF000 x 0x33) = .ok (.ldBVx x) ∧
    (accessFits s 3 → ∃ t, exec (.ldBVx x) s = .next t ∧
      t = { s with mem := t.mem, pc := s.pc + 2, outcome := some .completed } ∧
      (s.mem.wf = true → (t.mem.read s.i.toNat).toNat = s.v[x].toNat / 100 ∧
        (t.mem.read (s.i.toNat + 1)).toNat = s.v[x].toNat / 10 % 10 ∧
        (t.mem.read (s.i.toNat + 2)).toNat = s.v[x].toNat % 10) ∧
      ∀ a, a < s.i.toNat ∨ s.i.toNat + 3 ≤ a → t.mem.read a = s.mem.read a) ∧
    (¬ accessFits s 3 → exec (.ldBVx x) s = .next (withFault .capacityFault (some (wordXNN 0xF000 x 0x33)) s))

/-- `FX55` (R164): `V[0]`..`V[x]` are stored at `I` on, every other byte is unchanged, and `I` is left or advanced by
`x + 1` as `P_LDST_I` says (the spec's decision D8); an access past 0xFFF is a capacity fault with no byte
written. -/
def Obligations.StoreRegistersFillsMemory : Prop :=
  ∀ (x : RegIx) (s : State),
    decode (wordXNN 0xF000 x 0x55) = .ok (.ldMemVx x) ∧
    (accessFits s (x.val + 1) → ∃ t, exec (.ldMemVx x) s = .next t ∧
      t = { s with mem := t.mem, i := t.i, pc := s.pc + 2, outcome := some .completed } ∧
      t.i.toNat = (if s.params.ldstI = .advance then (s.i.toNat + x.val + 1) % 0x10000 else s.i.toNat) ∧
      (s.mem.wf = true → ∀ k : RegIx, k ≤ x → t.mem.read (s.i.toNat + k.val) = s.v[k]) ∧
      ∀ a, a < s.i.toNat ∨ s.i.toNat + x.val + 1 ≤ a → t.mem.read a = s.mem.read a) ∧
    (¬ accessFits s (x.val + 1) →
      exec (.ldMemVx x) s = .next (withFault .capacityFault (some (wordXNN 0xF000 x 0x55)) s))

/-- `FX65` (R165): `V[0]`..`V[x]` are loaded from `I` on, the registers above `x` and memory are unchanged, and `I` is
left or advanced by `x + 1` as `P_LDST_I` says (the spec's decision D8); an access past 0xFFF is a capacity fault with
no register written. -/
def Obligations.LoadRegistersReadsMemory : Prop :=
  ∀ (x : RegIx) (s : State),
    decode (wordXNN 0xF000 x 0x65) = .ok (.ldVxMem x) ∧
    (accessFits s (x.val + 1) → ∃ t, exec (.ldVxMem x) s = .next t ∧
      t = { s with v := t.v, i := t.i, pc := s.pc + 2, outcome := some .completed } ∧
      t.i.toNat = (if s.params.ldstI = .advance then (s.i.toNat + x.val + 1) % 0x10000 else s.i.toNat) ∧
      (∀ k : RegIx, t.v[k] = if k ≤ x then s.mem.read (s.i.toNat + k.val) else s.v[k])) ∧
    (¬ accessFits s (x.val + 1) →
      exec (.ldVxMem x) s = .next (withFault .capacityFault (some (wordXNN 0xF000 x 0x65)) s))

/-- A load of what a store saved gives the registers back: after `FX55`, in any state with the stored memory and `I`
at the same place, `FX65` leaves `V[0]`..`V[x]` as they were stored (R164, R165, R59). -/
def Obligations.LoadAfterStoreRestoresRegisters : Prop :=
  ∀ (x : RegIx) (s : State), s.mem.wf = true → accessFits s (x.val + 1) →
    ∃ t, exec (.ldMemVx x) s = .next t ∧
      ∀ u : State, u.mem = t.mem → u.i = s.i →
        ∃ w, exec (.ldVxMem x) u = .next w ∧ ∀ k : RegIx, w.v[k] = if k ≤ x then s.v[k] else u.v[k]

/-- Every word fetched after an instruction is made of the bytes it stored, where it stored them, and of the old bytes
elsewhere, the byte at the lower address first (R62, R267, R57; the spec's decision D26): the words at `I - 1` and at
the last byte stored, which are half old, are among them. Only `FX33` and `FX55` store, and a store that faults stores
nothing. Memory in canonical form is the premise of what stored bytes read as. -/
def Obligations.FetchSeesStoredBytes : Prop :=
  ∀ (i : Instr) (s : State), s.mem.wf = true →
    ∃ t, exec i s = .next t ∧
      ∀ p : Word, p.toNat ≤ 0xFFE →
        t.mem.fetch p =
          some (BitVec.ofNat 16 (256 * (byteAfter i s p.toNat).toNat + (byteAfter i s (p.toNat + 1)).toNat))

/-! ## Timers and input -/

/-- `FX07` (R180): `V[x]` takes `DT`; `FX15` (R181): `DT` takes `V[x]`; `FX18` (R182): `ST` takes `V[x]`; each changes
nothing else. -/
def Obligations.TimerInstructionsMoveBytes : Prop :=
  ∀ (x : RegIx) (s : State),
    decode (wordXNN 0xF000 x 0x07) = .ok (.ldVxDt x) ∧ decode (wordXNN 0xF000 x 0x15) = .ok (.ldDtVx x) ∧
    decode (wordXNN 0xF000 x 0x18) = .ok (.ldStVx x) ∧
    (∃ t, exec (.ldVxDt x) s = .next t ∧ onlyRegisters s t ∧ registersKept [x] s t ∧ t.v[x] = s.dt) ∧
    exec (.ldDtVx x) s = .next { s with dt := s.v[x], pc := s.pc + 2, outcome := some .completed } ∧
    exec (.ldStVx x) s = .next { s with st := s.v[x], pc := s.pc + 2, outcome := some .completed }

/-- `EX9E` (R183) and `EXA1` (R184): with `V[x]` at most 15 the pc advances by 4 if button `V[x]` is down,
respectively up, else by 2, and nothing else changes; with `V[x]` above 15 a fault is taken (R236). The sense of the
skips is the spec's decision D12. -/
def Obligations.KeySkipsTestTheButton : Prop :=
  ∀ (x : RegIx) (s : State),
    decode (wordXNN 0xE000 x 0x9E) = .ok (.skp x) ∧ decode (wordXNN 0xE000 x 0xA1) = .ok (.sknp x) ∧
    (s.v[x].toNat ≤ 15 →
      exec (.skp x) s = .next { s with
        pc := s.pc + (if (currentInput s).keys.getLsbD s.v[x].toNat then 4 else 2), outcome := some .completed } ∧
      exec (.sknp x) s = .next { s with
        pc := s.pc + (if (currentInput s).keys.getLsbD s.v[x].toNat then 2 else 4), outcome := some .completed }) ∧
    (15 < s.v[x].toNat →
      exec (.skp x) s = .next (withFault .invalidButtonIndex (some (wordXNN 0xE000 x 0x9E)) s) ∧
      exec (.sknp x) s = .next (withFault .invalidButtonIndex (some (wordXNN 0xE000 x 0xA1)) s))

/-- `FX0A` (R185): with no new press the instruction halts awaiting input and changes nothing; else `V[x]` takes the
least button that is down now and was up in the step before (the spec's decision D11), and nothing else changes. -/
def Obligations.WaitForKeyTakesTheLeastNewPress : Prop :=
  ∀ (x : RegIx) (s : State),
    decode (wordXNN 0xF000 x 0x0A) = .ok (.ldVxK x) ∧
    ((∀ k < 16, ((currentInput s).keys.getLsbD k && !s.prevKeys.getLsbD k) = false) →
      exec (.ldVxK x) s = .next { s with outcome := some .haltedAwaitingInput }) ∧
    (∀ k < 16, ((currentInput s).keys.getLsbD k && !s.prevKeys.getLsbD k) = true →
      (∀ j < k, ((currentInput s).keys.getLsbD j && !s.prevKeys.getLsbD j) = false) →
      ∃ t, exec (.ldVxK x) s = .next t ∧ onlyRegisters s t ∧ registersKept [x] s t ∧ t.v[x].toNat = k)

/-- `FX0A` is the only wait: a step halts awaiting input only if it runs `FX0A`. While it waits, the step runs: the
timers are decremented, `prevKeys` is recorded and all other state survives, the pc too; the wait ends in the step
whose `keys` has a bit set that `prevKeys` has clear (R247). -/
def Obligations.WaitingStepKeepsAllOtherState : Prop :=
  (∀ s t : State, step s = .next t → t.outcome = some .haltedAwaitingInput → ∃ x, instrAt s = some (.ldVxK x)) ∧
  ∀ (x : RegIx) (s : State), s.faulted = false → instrAt s = some (.ldVxK x) →
    ((currentInput s).keys &&& ~~~ s.prevKeys = 0 →
      step s = .next (inputTaken s
        { tickTimers s with prevKeys := (currentInput s).keys, outcome := some .haltedAwaitingInput })) ∧
    ((currentInput s).keys &&& ~~~ s.prevKeys ≠ 0 →
      ∃ t, step s = .next t ∧ t.outcome = some .completed ∧ t.pc = s.pc + 2)

/-- No instruction reads `ST` (R30): executed in a state that differs in `ST` only, every instruction does the same,
and `ST` keeps the value it had unless `FX18` writes it. -/
def Obligations.SoundTimerIsReadByNoInstruction : Prop :=
  ∀ (i : Instr) (s t : State) (b : Byte), exec i s = .next t →
    ((∀ x, i ≠ .ldStVx x) → exec i { s with st := b } = .next { t with st := b }) ∧
    ((∃ x, i = .ldStVx x) → exec i { s with st := b } = .next t)

/-- The only reader of `prevKeys` is `FX0A` (R33): executed in a state that differs in `prevKeys` only, every other
instruction does the same and leaves `prevKeys`. -/
def Obligations.PreviousKeysAreReadOnlyByTheWait : Prop :=
  ∀ (i : Instr) (s t : State) (keys : Word), (∀ x, i ≠ .ldVxK x) → exec i s = .next t →
    exec i { s with prevKeys := keys } = .next { t with prevKeys := keys }

/-! ## Display -/

/-- Pixel `(col, row)` is bit `7 - col mod 8` of framebuffer byte `row * 8 + col // 8`, and the pixels are the whole
of the framebuffer: two framebuffers with the same pixels are the same 256 bytes (R36, the spec's derivation). -/
def Obligations.PixelsAreTheBitsOfTheFramebuffer : Prop :=
  ∀ fb : FrameBuffer,
    (∀ col < 64, ∀ row < 32, pixel fb col row = (fb.toList.getD (row * 8 + col / 8) 0).getLsbD (7 - col % 8)) ∧
    ∀ fb' : FrameBuffer, (∀ col < 64, ∀ row < 32, pixel fb col row = pixel fb' col row) → fb = fb'

/-- `00E0` (R200): every pixel is cleared and nothing else changes, `VF` neither. -/
def Obligations.ClearScreenClearsEveryPixel : Prop :=
  decode 0x00E0 = .ok .cls ∧
  ∀ s : State, ∃ t, exec .cls s = .next t ∧
    t = { s with fb := t.fb, pc := s.pc + 2, outcome := some .completed } ∧
    (∀ b : Fin 256, t.fb[b] = 0) ∧ ∀ col < 64, ∀ row < 32, pixel t.fb col row = false

/-- `DXYN` (R201 to R206): every pixel that a 1-bit of the sprite covers is toggled and no other; `VF` is 1 iff one of
them was set before, else 0; the coordinates are the registers before the instruction; memory, `I`, the other
registers and all other state are unchanged. With rows past 0xFFF it is a capacity fault with no pixel and no `VF`
written. Wrapping, the zero-row sprite and the fault are the spec's decisions D16, D18 and D19. -/
def Obligations.DrawXorsTheSpriteAndReportsCollision : Prop :=
  ∀ (x y : RegIx) (n : Nibble) (s : State),
    decode (BitVec.ofNat 16 (0xD000 + 256 * x.val + 16 * y.val + n.toNat)) = .ok (.drw x y n) ∧
    (n.toNat = 0 ∨ accessFits s n.toNat → ∃ t, exec (.drw x y n) s = .next t ∧
      t = { s with fb := t.fb, v := t.v, pc := s.pc + 2, outcome := some .completed } ∧
      registersKept [15] s t ∧
      (∀ col < 64, ∀ row < 32, covered x y n s col row → pixel t.fb col row = !pixel s.fb col row) ∧
      (∀ col < 64, ∀ row < 32, ¬ covered x y n s col row → pixel t.fb col row = pixel s.fb col row) ∧
      ((∃ col < 64, ∃ row < 32, covered x y n s col row ∧ pixel s.fb col row = true) → t.v[(15 : Fin 16)] = 1) ∧
      ((¬ ∃ col < 64, ∃ row < 32, covered x y n s col row ∧ pixel s.fb col row = true) →
        t.v[(15 : Fin 16)] = 0)) ∧
    (n.toNat ≠ 0 → ¬ accessFits s n.toNat →
      exec (.drw x y n) s = .next (withFault .capacityFault
        (some (BitVec.ofNat 16 (0xD000 + 256 * x.val + 16 * y.val + n.toNat))) s))

/-- Drawing the same sprite at the same place twice restores the framebuffer, byte for byte, and the second draw's
`VF` is 1 iff some covered pixel was clear before the first (R207 and R208, the spec's derivations). The second draw
runs in any state with the first one's framebuffer and the same sprite and coordinates, so that `x = 15` and `y = 15`
are covered too. -/
def Obligations.DoubleDrawRestoresTheFramebuffer : Prop :=
  ∀ (x y : RegIx) (n : Nibble) (s : State), n.toNat = 0 ∨ accessFits s n.toNat →
    ∃ t, exec (.drw x y n) s = .next t ∧
      ∀ u : State, u.fb = t.fb → u.mem = s.mem → u.i = s.i → u.v[x] = s.v[x] → u.v[y] = s.v[y] →
        ∃ w, exec (.drw x y n) u = .next w ∧ w.fb = s.fb ∧
          ((∃ col < 64, ∃ row < 32, covered x y n s col row ∧ pixel s.fb col row = false) →
            w.v[(15 : Fin 16)] = 1) ∧
          ((¬ ∃ col < 64, ∃ row < 32, covered x y n s col row ∧ pixel s.fb col row = false) →
            w.v[(15 : Fin 16)] = 0)

/-! ## Stored bytes in later steps -/

/-- A byte that a step stores, by `FX33` or `FX55`, is seen by the fetch of every later step, until a step stores to
its address again: in every state reached by steps that store elsewhere or not at all, the address reads as the byte
and every word with that address in it has the byte as its high or its low half, the word at the `pc` among them. What
a step stores is decided by the word fetched before its writes, so an instruction that overwrites itself executes as
fetched (R62, R267; the spec's decision D26). -/
def Obligations.StoredByteIsSeenByEveryLaterFetch : Prop :=
  ∀ (s t : State) (a : Nat) (b : Byte), s.mem.wf = true → step s = .next t → storedByStep s a = some b →
    ∀ (n : Nat) (u : State), reachedKeeping a t n u →
      u.mem.read a = b ∧
      ∀ p : Word, p.toNat ≤ 0xFFE →
        ∃ op, u.mem.fetch p = some op ∧ (p.toNat = a → op.toNat / 256 = b.toNat) ∧
          (p.toNat + 1 = a → op.toNat % 256 = b.toNat)
end

