-- ==== Sys2Proof/Laws/Decode.lean ====
section
/-! SUPPORT. The fields of encoded words: the bits of each format, and what the decoder's field readers answer on
them (30_encoding.md rules R71, R73). -/

namespace Sys2Proof.Laws

/-- The bits of a word of format `NNN`. -/
theorem encodeNNN_getLsbD (c : Nibble) (nnn : Addr) (i : Nat) :
    (encodeNNN c nnn).getLsbD i = if i < 12 then nnn.getLsbD i else c.getLsbD (i - 12) :=
  BitVec.getLsbD_append

/-- The bits of a word of format `XNN` or `X`. -/
theorem encodeXNN_getLsbD (c : Nibble) (x : RegIx) (nn : Byte) (i : Nat) :
    (encodeXNN c x nn).getLsbD i =
      if i < 8 then nn.getLsbD i
      else if i - 8 < 4 then (regField x).getLsbD (i - 8) else c.getLsbD (i - 8 - 4) := by
  rw [← BitVec.getLsbD_append (x := c) (y := regField x), ← BitVec.getLsbD_append (y := nn)]
  rfl

/-- The bits of a word of format `XY` or `XYN`. -/
theorem encodeXY_getLsbD (c : Nibble) (x y : RegIx) (n : Nibble) (i : Nat) :
    (encodeXY c x y n).getLsbD i =
      if i < 4 then n.getLsbD i
      else if i - 4 < 4 then (regField y).getLsbD (i - 4)
      else if i - 4 - 4 < 4 then (regField x).getLsbD (i - 4 - 4) else c.getLsbD (i - 4 - 4 - 4) := by
  rw [← BitVec.getLsbD_append (x := c) (y := regField x), ← BitVec.getLsbD_append (y := regField y),
    ← BitVec.getLsbD_append (y := n)]
  rfl

@[simp] theorem opC_encodeNNN (c : Nibble) (nnn : Addr) : opC (encodeNNN c nnn) = c := by
  refine BitVec.eq_of_getLsbD_eq fun i hi => ?_
  rw [opC]
  rw [BitVec.getLsbD_extractLsb', encodeNNN_getLsbD]
  interval_cases i <;> simp

@[simp] theorem opNNN_encodeNNN (c : Nibble) (nnn : Addr) : opNNN (encodeNNN c nnn) = nnn := by
  refine BitVec.eq_of_getLsbD_eq fun i hi => ?_
  rw [opNNN]
  rw [BitVec.getLsbD_extractLsb', encodeNNN_getLsbD]
  interval_cases i <;> simp

@[simp] theorem opC_encodeXNN (c : Nibble) (x : RegIx) (nn : Byte) : opC (encodeXNN c x nn) = c := by
  refine BitVec.eq_of_getLsbD_eq fun i hi => ?_
  rw [opC]
  rw [BitVec.getLsbD_extractLsb', encodeXNN_getLsbD]
  interval_cases i <;> simp

@[simp] theorem opX_encodeXNN (c : Nibble) (x : RegIx) (nn : Byte) : opX (encodeXNN c x nn) = x := by
  refine congrArg BitVec.toFin (a₂ := regField x) (BitVec.eq_of_getLsbD_eq fun i hi => ?_)
  rw [BitVec.getLsbD_extractLsb', encodeXNN_getLsbD]
  interval_cases i <;> simp

@[simp] theorem opNN_encodeXNN (c : Nibble) (x : RegIx) (nn : Byte) : opNN (encodeXNN c x nn) = nn := by
  refine BitVec.eq_of_getLsbD_eq fun i hi => ?_
  rw [opNN]
  rw [BitVec.getLsbD_extractLsb', encodeXNN_getLsbD]
  interval_cases i <;> simp

@[simp] theorem opC_encodeXY (c : Nibble) (x y : RegIx) (n : Nibble) : opC (encodeXY c x y n) = c := by
  refine BitVec.eq_of_getLsbD_eq fun i hi => ?_
  rw [opC]
  rw [BitVec.getLsbD_extractLsb', encodeXY_getLsbD]
  interval_cases i <;> simp

@[simp] theorem opX_encodeXY (c : Nibble) (x y : RegIx) (n : Nibble) : opX (encodeXY c x y n) = x := by
  refine congrArg BitVec.toFin (a₂ := regField x) (BitVec.eq_of_getLsbD_eq fun i hi => ?_)
  rw [BitVec.getLsbD_extractLsb', encodeXY_getLsbD]
  interval_cases i <;> simp

@[simp] theorem opY_encodeXY (c : Nibble) (x y : RegIx) (n : Nibble) : opY (encodeXY c x y n) = y := by
  refine congrArg BitVec.toFin (a₂ := regField y) (BitVec.eq_of_getLsbD_eq fun i hi => ?_)
  rw [BitVec.getLsbD_extractLsb', encodeXY_getLsbD]
  interval_cases i <;> simp

@[simp] theorem opN_encodeXY (c : Nibble) (x y : RegIx) (n : Nibble) : opN (encodeXY c x y n) = n := by
  refine BitVec.eq_of_getLsbD_eq fun i hi => ?_
  rw [opN]
  rw [BitVec.getLsbD_extractLsb', encodeXY_getLsbD]
  interval_cases i <;> simp

end Sys2Proof.Laws
end

