-- ==== Sys2Proof/Laws/State.lean ====
section
/-! SUPPORT. One lemma per field per update of the state, so that no proof unfolds a record update. -/

namespace Sys2Proof.Machine

/-! `setV` -/
@[simp] theorem setV_v (x : RegIx) (b : Byte) (s : State) : (setV x b s).v = s.v.set x b := rfl
@[simp] theorem setV_i (x : RegIx) (b : Byte) (s : State) : (setV x b s).i = s.i := rfl
@[simp] theorem setV_pc (x : RegIx) (b : Byte) (s : State) : (setV x b s).pc = s.pc := rfl
@[simp] theorem setV_stack (x : RegIx) (b : Byte) (s : State) : (setV x b s).stack = s.stack := rfl
@[simp] theorem setV_sp (x : RegIx) (b : Byte) (s : State) : (setV x b s).sp = s.sp := rfl
@[simp] theorem setV_dt (x : RegIx) (b : Byte) (s : State) : (setV x b s).dt = s.dt := rfl
@[simp] theorem setV_st (x : RegIx) (b : Byte) (s : State) : (setV x b s).st = s.st := rfl
@[simp] theorem setV_prevKeys (x : RegIx) (b : Byte) (s : State) : (setV x b s).prevKeys = s.prevKeys := rfl
@[simp] theorem setV_fb (x : RegIx) (b : Byte) (s : State) : (setV x b s).fb = s.fb := rfl
@[simp] theorem setV_mem (x : RegIx) (b : Byte) (s : State) : (setV x b s).mem = s.mem := rfl
@[simp] theorem setV_faulted (x : RegIx) (b : Byte) (s : State) : (setV x b s).faulted = s.faulted := rfl
@[simp] theorem setV_outcome (x : RegIx) (b : Byte) (s : State) : (setV x b s).outcome = s.outcome := rfl
@[simp] theorem setV_params (x : RegIx) (b : Byte) (s : State) : (setV x b s).params = s.params := rfl
@[simp] theorem setV_inputs (x : RegIx) (b : Byte) (s : State) : (setV x b s).inputs = s.inputs := rfl
@[simp] theorem setV_stepNo (x : RegIx) (b : Byte) (s : State) : (setV x b s).stepNo = s.stepNo := rfl

/-! `setRegs` -/
@[simp] theorem setRegs_v (w : Registers) (s : State) : (setRegs w s).v = w := rfl
@[simp] theorem setRegs_i (w : Registers) (s : State) : (setRegs w s).i = s.i := rfl
@[simp] theorem setRegs_pc (w : Registers) (s : State) : (setRegs w s).pc = s.pc := rfl
@[simp] theorem setRegs_stack (w : Registers) (s : State) : (setRegs w s).stack = s.stack := rfl
@[simp] theorem setRegs_sp (w : Registers) (s : State) : (setRegs w s).sp = s.sp := rfl
@[simp] theorem setRegs_dt (w : Registers) (s : State) : (setRegs w s).dt = s.dt := rfl
@[simp] theorem setRegs_st (w : Registers) (s : State) : (setRegs w s).st = s.st := rfl
@[simp] theorem setRegs_prevKeys (w : Registers) (s : State) : (setRegs w s).prevKeys = s.prevKeys := rfl
@[simp] theorem setRegs_fb (w : Registers) (s : State) : (setRegs w s).fb = s.fb := rfl
@[simp] theorem setRegs_mem (w : Registers) (s : State) : (setRegs w s).mem = s.mem := rfl
@[simp] theorem setRegs_faulted (w : Registers) (s : State) : (setRegs w s).faulted = s.faulted := rfl
@[simp] theorem setRegs_outcome (w : Registers) (s : State) : (setRegs w s).outcome = s.outcome := rfl
@[simp] theorem setRegs_params (w : Registers) (s : State) : (setRegs w s).params = s.params := rfl
@[simp] theorem setRegs_inputs (w : Registers) (s : State) : (setRegs w s).inputs = s.inputs := rfl
@[simp] theorem setRegs_stepNo (w : Registers) (s : State) : (setRegs w s).stepNo = s.stepNo := rfl

/-! `setI` -/
@[simp] theorem setI_v (w : Word) (s : State) : (setI w s).v = s.v := rfl
@[simp] theorem setI_i (w : Word) (s : State) : (setI w s).i = w := rfl
@[simp] theorem setI_pc (w : Word) (s : State) : (setI w s).pc = s.pc := rfl
@[simp] theorem setI_stack (w : Word) (s : State) : (setI w s).stack = s.stack := rfl
@[simp] theorem setI_sp (w : Word) (s : State) : (setI w s).sp = s.sp := rfl
@[simp] theorem setI_dt (w : Word) (s : State) : (setI w s).dt = s.dt := rfl
@[simp] theorem setI_st (w : Word) (s : State) : (setI w s).st = s.st := rfl
@[simp] theorem setI_prevKeys (w : Word) (s : State) : (setI w s).prevKeys = s.prevKeys := rfl
@[simp] theorem setI_fb (w : Word) (s : State) : (setI w s).fb = s.fb := rfl
@[simp] theorem setI_mem (w : Word) (s : State) : (setI w s).mem = s.mem := rfl
@[simp] theorem setI_faulted (w : Word) (s : State) : (setI w s).faulted = s.faulted := rfl
@[simp] theorem setI_outcome (w : Word) (s : State) : (setI w s).outcome = s.outcome := rfl
@[simp] theorem setI_params (w : Word) (s : State) : (setI w s).params = s.params := rfl
@[simp] theorem setI_inputs (w : Word) (s : State) : (setI w s).inputs = s.inputs := rfl
@[simp] theorem setI_stepNo (w : Word) (s : State) : (setI w s).stepNo = s.stepNo := rfl

/-! `setDt` -/
@[simp] theorem setDt_v (b : Byte) (s : State) : (setDt b s).v = s.v := rfl
@[simp] theorem setDt_i (b : Byte) (s : State) : (setDt b s).i = s.i := rfl
@[simp] theorem setDt_pc (b : Byte) (s : State) : (setDt b s).pc = s.pc := rfl
@[simp] theorem setDt_stack (b : Byte) (s : State) : (setDt b s).stack = s.stack := rfl
@[simp] theorem setDt_sp (b : Byte) (s : State) : (setDt b s).sp = s.sp := rfl
@[simp] theorem setDt_dt (b : Byte) (s : State) : (setDt b s).dt = b := rfl
@[simp] theorem setDt_st (b : Byte) (s : State) : (setDt b s).st = s.st := rfl
@[simp] theorem setDt_prevKeys (b : Byte) (s : State) : (setDt b s).prevKeys = s.prevKeys := rfl
@[simp] theorem setDt_fb (b : Byte) (s : State) : (setDt b s).fb = s.fb := rfl
@[simp] theorem setDt_mem (b : Byte) (s : State) : (setDt b s).mem = s.mem := rfl
@[simp] theorem setDt_faulted (b : Byte) (s : State) : (setDt b s).faulted = s.faulted := rfl
@[simp] theorem setDt_outcome (b : Byte) (s : State) : (setDt b s).outcome = s.outcome := rfl
@[simp] theorem setDt_params (b : Byte) (s : State) : (setDt b s).params = s.params := rfl
@[simp] theorem setDt_inputs (b : Byte) (s : State) : (setDt b s).inputs = s.inputs := rfl
@[simp] theorem setDt_stepNo (b : Byte) (s : State) : (setDt b s).stepNo = s.stepNo := rfl

/-! `setSt` -/
@[simp] theorem setSt_v (b : Byte) (s : State) : (setSt b s).v = s.v := rfl
@[simp] theorem setSt_i (b : Byte) (s : State) : (setSt b s).i = s.i := rfl
@[simp] theorem setSt_pc (b : Byte) (s : State) : (setSt b s).pc = s.pc := rfl
@[simp] theorem setSt_stack (b : Byte) (s : State) : (setSt b s).stack = s.stack := rfl
@[simp] theorem setSt_sp (b : Byte) (s : State) : (setSt b s).sp = s.sp := rfl
@[simp] theorem setSt_dt (b : Byte) (s : State) : (setSt b s).dt = s.dt := rfl
@[simp] theorem setSt_st (b : Byte) (s : State) : (setSt b s).st = b := rfl
@[simp] theorem setSt_prevKeys (b : Byte) (s : State) : (setSt b s).prevKeys = s.prevKeys := rfl
@[simp] theorem setSt_fb (b : Byte) (s : State) : (setSt b s).fb = s.fb := rfl
@[simp] theorem setSt_mem (b : Byte) (s : State) : (setSt b s).mem = s.mem := rfl
@[simp] theorem setSt_faulted (b : Byte) (s : State) : (setSt b s).faulted = s.faulted := rfl
@[simp] theorem setSt_outcome (b : Byte) (s : State) : (setSt b s).outcome = s.outcome := rfl
@[simp] theorem setSt_params (b : Byte) (s : State) : (setSt b s).params = s.params := rfl
@[simp] theorem setSt_inputs (b : Byte) (s : State) : (setSt b s).inputs = s.inputs := rfl
@[simp] theorem setSt_stepNo (b : Byte) (s : State) : (setSt b s).stepNo = s.stepNo := rfl

/-! `setFb` -/
@[simp] theorem setFb_v (fb : FrameBuffer) (s : State) : (setFb fb s).v = s.v := rfl
@[simp] theorem setFb_i (fb : FrameBuffer) (s : State) : (setFb fb s).i = s.i := rfl
@[simp] theorem setFb_pc (fb : FrameBuffer) (s : State) : (setFb fb s).pc = s.pc := rfl
@[simp] theorem setFb_stack (fb : FrameBuffer) (s : State) : (setFb fb s).stack = s.stack := rfl
@[simp] theorem setFb_sp (fb : FrameBuffer) (s : State) : (setFb fb s).sp = s.sp := rfl
@[simp] theorem setFb_dt (fb : FrameBuffer) (s : State) : (setFb fb s).dt = s.dt := rfl
@[simp] theorem setFb_st (fb : FrameBuffer) (s : State) : (setFb fb s).st = s.st := rfl
@[simp] theorem setFb_prevKeys (fb : FrameBuffer) (s : State) : (setFb fb s).prevKeys = s.prevKeys := rfl
@[simp] theorem setFb_fb (fb : FrameBuffer) (s : State) : (setFb fb s).fb = fb := rfl
@[simp] theorem setFb_mem (fb : FrameBuffer) (s : State) : (setFb fb s).mem = s.mem := rfl
@[simp] theorem setFb_faulted (fb : FrameBuffer) (s : State) : (setFb fb s).faulted = s.faulted := rfl
@[simp] theorem setFb_outcome (fb : FrameBuffer) (s : State) : (setFb fb s).outcome = s.outcome := rfl
@[simp] theorem setFb_params (fb : FrameBuffer) (s : State) : (setFb fb s).params = s.params := rfl
@[simp] theorem setFb_inputs (fb : FrameBuffer) (s : State) : (setFb fb s).inputs = s.inputs := rfl
@[simp] theorem setFb_stepNo (fb : FrameBuffer) (s : State) : (setFb fb s).stepNo = s.stepNo := rfl

/-! `setMem` -/
@[simp] theorem setMem_v (m : Memory) (s : State) : (setMem m s).v = s.v := rfl
@[simp] theorem setMem_i (m : Memory) (s : State) : (setMem m s).i = s.i := rfl
@[simp] theorem setMem_pc (m : Memory) (s : State) : (setMem m s).pc = s.pc := rfl
@[simp] theorem setMem_stack (m : Memory) (s : State) : (setMem m s).stack = s.stack := rfl
@[simp] theorem setMem_sp (m : Memory) (s : State) : (setMem m s).sp = s.sp := rfl
@[simp] theorem setMem_dt (m : Memory) (s : State) : (setMem m s).dt = s.dt := rfl
@[simp] theorem setMem_st (m : Memory) (s : State) : (setMem m s).st = s.st := rfl
@[simp] theorem setMem_prevKeys (m : Memory) (s : State) : (setMem m s).prevKeys = s.prevKeys := rfl
@[simp] theorem setMem_fb (m : Memory) (s : State) : (setMem m s).fb = s.fb := rfl
@[simp] theorem setMem_mem (m : Memory) (s : State) : (setMem m s).mem = m := rfl
@[simp] theorem setMem_faulted (m : Memory) (s : State) : (setMem m s).faulted = s.faulted := rfl
@[simp] theorem setMem_outcome (m : Memory) (s : State) : (setMem m s).outcome = s.outcome := rfl
@[simp] theorem setMem_params (m : Memory) (s : State) : (setMem m s).params = s.params := rfl
@[simp] theorem setMem_inputs (m : Memory) (s : State) : (setMem m s).inputs = s.inputs := rfl
@[simp] theorem setMem_stepNo (m : Memory) (s : State) : (setMem m s).stepNo = s.stepNo := rfl

/-! `advance` -/
@[simp] theorem advance_v (k : NextPc) (s : State) : (advance k s).v = s.v := rfl
@[simp] theorem advance_i (k : NextPc) (s : State) : (advance k s).i = s.i := rfl
@[simp] theorem advance_pc (k : NextPc) (s : State) : (advance k s).pc = nextPc k s.pc := rfl
@[simp] theorem advance_stack (k : NextPc) (s : State) : (advance k s).stack = s.stack := rfl
@[simp] theorem advance_sp (k : NextPc) (s : State) : (advance k s).sp = s.sp := rfl
@[simp] theorem advance_dt (k : NextPc) (s : State) : (advance k s).dt = s.dt := rfl
@[simp] theorem advance_st (k : NextPc) (s : State) : (advance k s).st = s.st := rfl
@[simp] theorem advance_prevKeys (k : NextPc) (s : State) : (advance k s).prevKeys = s.prevKeys := rfl
@[simp] theorem advance_fb (k : NextPc) (s : State) : (advance k s).fb = s.fb := rfl
@[simp] theorem advance_mem (k : NextPc) (s : State) : (advance k s).mem = s.mem := rfl
@[simp] theorem advance_faulted (k : NextPc) (s : State) : (advance k s).faulted = s.faulted := rfl
@[simp] theorem advance_outcome (k : NextPc) (s : State) : (advance k s).outcome = some (outcomeOf k) := rfl
@[simp] theorem advance_params (k : NextPc) (s : State) : (advance k s).params = s.params := rfl
@[simp] theorem advance_inputs (k : NextPc) (s : State) : (advance k s).inputs = s.inputs := rfl
@[simp] theorem advance_stepNo (k : NextPc) (s : State) : (advance k s).stepNo = s.stepNo := rfl

/-! `raise` -/
@[simp] theorem raise_v (k : FaultKind) (o : Option Word) (s : State) : (raise k o s).v = s.v := rfl
@[simp] theorem raise_i (k : FaultKind) (o : Option Word) (s : State) : (raise k o s).i = s.i := rfl
@[simp] theorem raise_pc (k : FaultKind) (o : Option Word) (s : State) : (raise k o s).pc = s.pc := rfl
@[simp] theorem raise_stack (k : FaultKind) (o : Option Word) (s : State) : (raise k o s).stack = s.stack := rfl
@[simp] theorem raise_sp (k : FaultKind) (o : Option Word) (s : State) : (raise k o s).sp = s.sp := rfl
@[simp] theorem raise_dt (k : FaultKind) (o : Option Word) (s : State) : (raise k o s).dt = s.dt := rfl
@[simp] theorem raise_st (k : FaultKind) (o : Option Word) (s : State) : (raise k o s).st = s.st := rfl
@[simp] theorem raise_prevKeys (k : FaultKind) (o : Option Word) (s : State) : (raise k o s).prevKeys = s.prevKeys := rfl
@[simp] theorem raise_fb (k : FaultKind) (o : Option Word) (s : State) : (raise k o s).fb = s.fb := rfl
@[simp] theorem raise_mem (k : FaultKind) (o : Option Word) (s : State) : (raise k o s).mem = s.mem := rfl
@[simp] theorem raise_faulted (k : FaultKind) (o : Option Word) (s : State) : (raise k o s).faulted = true := rfl
@[simp] theorem raise_outcome (k : FaultKind) (o : Option Word) (s : State) : (raise k o s).outcome = some (.fault k o s.pc) := rfl
@[simp] theorem raise_params (k : FaultKind) (o : Option Word) (s : State) : (raise k o s).params = s.params := rfl
@[simp] theorem raise_inputs (k : FaultKind) (o : Option Word) (s : State) : (raise k o s).inputs = s.inputs := rfl
@[simp] theorem raise_stepNo (k : FaultKind) (o : Option Word) (s : State) : (raise k o s).stepNo = s.stepNo := rfl

/-! `raiseAt` -/
@[simp] theorem raiseAt_v (j : Instr) (k : FaultKind) (s : State) : (raiseAt j k s).v = s.v := rfl
@[simp] theorem raiseAt_i (j : Instr) (k : FaultKind) (s : State) : (raiseAt j k s).i = s.i := rfl
@[simp] theorem raiseAt_pc (j : Instr) (k : FaultKind) (s : State) : (raiseAt j k s).pc = s.pc := rfl
@[simp] theorem raiseAt_stack (j : Instr) (k : FaultKind) (s : State) : (raiseAt j k s).stack = s.stack := rfl
@[simp] theorem raiseAt_sp (j : Instr) (k : FaultKind) (s : State) : (raiseAt j k s).sp = s.sp := rfl
@[simp] theorem raiseAt_dt (j : Instr) (k : FaultKind) (s : State) : (raiseAt j k s).dt = s.dt := rfl
@[simp] theorem raiseAt_st (j : Instr) (k : FaultKind) (s : State) : (raiseAt j k s).st = s.st := rfl
@[simp] theorem raiseAt_prevKeys (j : Instr) (k : FaultKind) (s : State) : (raiseAt j k s).prevKeys = s.prevKeys := rfl
@[simp] theorem raiseAt_fb (j : Instr) (k : FaultKind) (s : State) : (raiseAt j k s).fb = s.fb := rfl
@[simp] theorem raiseAt_mem (j : Instr) (k : FaultKind) (s : State) : (raiseAt j k s).mem = s.mem := rfl
@[simp] theorem raiseAt_faulted (j : Instr) (k : FaultKind) (s : State) : (raiseAt j k s).faulted = true := rfl
@[simp] theorem raiseAt_outcome (j : Instr) (k : FaultKind) (s : State) : (raiseAt j k s).outcome = some (.fault k (some (encode j)) s.pc) := rfl
@[simp] theorem raiseAt_params (j : Instr) (k : FaultKind) (s : State) : (raiseAt j k s).params = s.params := rfl
@[simp] theorem raiseAt_inputs (j : Instr) (k : FaultKind) (s : State) : (raiseAt j k s).inputs = s.inputs := rfl
@[simp] theorem raiseAt_stepNo (j : Instr) (k : FaultKind) (s : State) : (raiseAt j k s).stepNo = s.stepNo := rfl

/-! `tickTimers` -/
@[simp] theorem tickTimers_v (s : State) : (tickTimers s).v = s.v := rfl
@[simp] theorem tickTimers_i (s : State) : (tickTimers s).i = s.i := rfl
@[simp] theorem tickTimers_pc (s : State) : (tickTimers s).pc = s.pc := rfl
@[simp] theorem tickTimers_stack (s : State) : (tickTimers s).stack = s.stack := rfl
@[simp] theorem tickTimers_sp (s : State) : (tickTimers s).sp = s.sp := rfl
@[simp] theorem tickTimers_dt (s : State) : (tickTimers s).dt = if (currentInput s).tick then countDown s.dt else s.dt := rfl
@[simp] theorem tickTimers_st (s : State) : (tickTimers s).st = if (currentInput s).tick then countDown s.st else s.st := rfl
@[simp] theorem tickTimers_prevKeys (s : State) : (tickTimers s).prevKeys = s.prevKeys := rfl
@[simp] theorem tickTimers_fb (s : State) : (tickTimers s).fb = s.fb := rfl
@[simp] theorem tickTimers_mem (s : State) : (tickTimers s).mem = s.mem := rfl
@[simp] theorem tickTimers_faulted (s : State) : (tickTimers s).faulted = s.faulted := rfl
@[simp] theorem tickTimers_outcome (s : State) : (tickTimers s).outcome = s.outcome := rfl
@[simp] theorem tickTimers_params (s : State) : (tickTimers s).params = s.params := rfl
@[simp] theorem tickTimers_inputs (s : State) : (tickTimers s).inputs = s.inputs := rfl
@[simp] theorem tickTimers_stepNo (s : State) : (tickTimers s).stepNo = s.stepNo := rfl

/-! `takeInput` -/
@[simp] theorem takeInput_v (s : State) : (takeInput s).v = s.v := rfl
@[simp] theorem takeInput_i (s : State) : (takeInput s).i = s.i := rfl
@[simp] theorem takeInput_pc (s : State) : (takeInput s).pc = s.pc := rfl
@[simp] theorem takeInput_stack (s : State) : (takeInput s).stack = s.stack := rfl
@[simp] theorem takeInput_sp (s : State) : (takeInput s).sp = s.sp := rfl
@[simp] theorem takeInput_dt (s : State) : (takeInput s).dt = s.dt := rfl
@[simp] theorem takeInput_st (s : State) : (takeInput s).st = s.st := rfl
@[simp] theorem takeInput_prevKeys (s : State) : (takeInput s).prevKeys = s.prevKeys := rfl
@[simp] theorem takeInput_fb (s : State) : (takeInput s).fb = s.fb := rfl
@[simp] theorem takeInput_mem (s : State) : (takeInput s).mem = s.mem := rfl
@[simp] theorem takeInput_faulted (s : State) : (takeInput s).faulted = s.faulted := rfl
@[simp] theorem takeInput_outcome (s : State) : (takeInput s).outcome = s.outcome := rfl
@[simp] theorem takeInput_params (s : State) : (takeInput s).params = s.params := rfl
@[simp] theorem takeInput_inputs (s : State) : (takeInput s).inputs = s.inputs.tail := rfl
@[simp] theorem takeInput_stepNo (s : State) : (takeInput s).stepNo = s.stepNo + 1 := rfl

/-! `recordKeys` -/
@[simp] theorem recordKeys_v (s : State) : (recordKeys s).v = s.v := rfl
@[simp] theorem recordKeys_i (s : State) : (recordKeys s).i = s.i := rfl
@[simp] theorem recordKeys_pc (s : State) : (recordKeys s).pc = s.pc := rfl
@[simp] theorem recordKeys_stack (s : State) : (recordKeys s).stack = s.stack := rfl
@[simp] theorem recordKeys_sp (s : State) : (recordKeys s).sp = s.sp := rfl
@[simp] theorem recordKeys_dt (s : State) : (recordKeys s).dt = s.dt := rfl
@[simp] theorem recordKeys_st (s : State) : (recordKeys s).st = s.st := rfl
@[simp] theorem recordKeys_prevKeys (s : State) : (recordKeys s).prevKeys = if s.faulted then s.prevKeys else (currentInput s).keys := rfl
@[simp] theorem recordKeys_fb (s : State) : (recordKeys s).fb = s.fb := rfl
@[simp] theorem recordKeys_mem (s : State) : (recordKeys s).mem = s.mem := rfl
@[simp] theorem recordKeys_faulted (s : State) : (recordKeys s).faulted = s.faulted := rfl
@[simp] theorem recordKeys_outcome (s : State) : (recordKeys s).outcome = s.outcome := rfl
@[simp] theorem recordKeys_params (s : State) : (recordKeys s).params = s.params := rfl
@[simp] theorem recordKeys_inputs (s : State) : (recordKeys s).inputs = s.inputs := rfl
@[simp] theorem recordKeys_stepNo (s : State) : (recordKeys s).stepNo = s.stepNo := rfl

/-! `endStep` -/
@[simp] theorem endStep_v (s : State) : (endStep s).v = s.v := rfl
@[simp] theorem endStep_i (s : State) : (endStep s).i = s.i := rfl
@[simp] theorem endStep_pc (s : State) : (endStep s).pc = s.pc := rfl
@[simp] theorem endStep_stack (s : State) : (endStep s).stack = s.stack := rfl
@[simp] theorem endStep_sp (s : State) : (endStep s).sp = s.sp := rfl
@[simp] theorem endStep_dt (s : State) : (endStep s).dt = s.dt := rfl
@[simp] theorem endStep_st (s : State) : (endStep s).st = s.st := rfl
@[simp] theorem endStep_prevKeys (s : State) : (endStep s).prevKeys = if s.faulted then s.prevKeys else (currentInput s).keys := rfl
@[simp] theorem endStep_fb (s : State) : (endStep s).fb = s.fb := rfl
@[simp] theorem endStep_mem (s : State) : (endStep s).mem = s.mem := rfl
@[simp] theorem endStep_faulted (s : State) : (endStep s).faulted = s.faulted := rfl
@[simp] theorem endStep_outcome (s : State) : (endStep s).outcome = s.outcome := rfl
@[simp] theorem endStep_params (s : State) : (endStep s).params = s.params := rfl
@[simp] theorem endStep_inputs (s : State) : (endStep s).inputs = s.inputs.tail := rfl
@[simp] theorem endStep_stepNo (s : State) : (endStep s).stepNo = s.stepNo + 1 := rfl

/-! `setResultFlag` -/
@[simp] theorem setResultFlag_v (x : RegIx) (r f : Byte) (s : State) : (setResultFlag x r f s).v = (s.v.set x r).set regVF f := rfl
@[simp] theorem setResultFlag_i (x : RegIx) (r f : Byte) (s : State) : (setResultFlag x r f s).i = s.i := rfl
@[simp] theorem setResultFlag_pc (x : RegIx) (r f : Byte) (s : State) : (setResultFlag x r f s).pc = s.pc := rfl
@[simp] theorem setResultFlag_stack (x : RegIx) (r f : Byte) (s : State) : (setResultFlag x r f s).stack = s.stack := rfl
@[simp] theorem setResultFlag_sp (x : RegIx) (r f : Byte) (s : State) : (setResultFlag x r f s).sp = s.sp := rfl
@[simp] theorem setResultFlag_dt (x : RegIx) (r f : Byte) (s : State) : (setResultFlag x r f s).dt = s.dt := rfl
@[simp] theorem setResultFlag_st (x : RegIx) (r f : Byte) (s : State) : (setResultFlag x r f s).st = s.st := rfl
@[simp] theorem setResultFlag_prevKeys (x : RegIx) (r f : Byte) (s : State) : (setResultFlag x r f s).prevKeys = s.prevKeys := rfl
@[simp] theorem setResultFlag_fb (x : RegIx) (r f : Byte) (s : State) : (setResultFlag x r f s).fb = s.fb := rfl
@[simp] theorem setResultFlag_mem (x : RegIx) (r f : Byte) (s : State) : (setResultFlag x r f s).mem = s.mem := rfl
@[simp] theorem setResultFlag_faulted (x : RegIx) (r f : Byte) (s : State) : (setResultFlag x r f s).faulted = s.faulted := rfl
@[simp] theorem setResultFlag_outcome (x : RegIx) (r f : Byte) (s : State) : (setResultFlag x r f s).outcome = s.outcome := rfl
@[simp] theorem setResultFlag_params (x : RegIx) (r f : Byte) (s : State) : (setResultFlag x r f s).params = s.params := rfl
@[simp] theorem setResultFlag_inputs (x : RegIx) (r f : Byte) (s : State) : (setResultFlag x r f s).inputs = s.inputs := rfl
@[simp] theorem setResultFlag_stepNo (x : RegIx) (r f : Byte) (s : State) : (setResultFlag x r f s).stepNo = s.stepNo := rfl

/-! `setLogic` -/
@[simp] theorem setLogic_i (x : RegIx) (r : Byte) (s : State) : (setLogic x r s).i = s.i := by unfold setLogic; split <;> rfl
@[simp] theorem setLogic_pc (x : RegIx) (r : Byte) (s : State) : (setLogic x r s).pc = s.pc := by unfold setLogic; split <;> rfl
@[simp] theorem setLogic_stack (x : RegIx) (r : Byte) (s : State) : (setLogic x r s).stack = s.stack := by unfold setLogic; split <;> rfl
@[simp] theorem setLogic_sp (x : RegIx) (r : Byte) (s : State) : (setLogic x r s).sp = s.sp := by unfold setLogic; split <;> rfl
@[simp] theorem setLogic_dt (x : RegIx) (r : Byte) (s : State) : (setLogic x r s).dt = s.dt := by unfold setLogic; split <;> rfl
@[simp] theorem setLogic_st (x : RegIx) (r : Byte) (s : State) : (setLogic x r s).st = s.st := by unfold setLogic; split <;> rfl
@[simp] theorem setLogic_prevKeys (x : RegIx) (r : Byte) (s : State) : (setLogic x r s).prevKeys = s.prevKeys := by unfold setLogic; split <;> rfl
@[simp] theorem setLogic_fb (x : RegIx) (r : Byte) (s : State) : (setLogic x r s).fb = s.fb := by unfold setLogic; split <;> rfl
@[simp] theorem setLogic_mem (x : RegIx) (r : Byte) (s : State) : (setLogic x r s).mem = s.mem := by unfold setLogic; split <;> rfl
@[simp] theorem setLogic_faulted (x : RegIx) (r : Byte) (s : State) : (setLogic x r s).faulted = s.faulted := by unfold setLogic; split <;> rfl
@[simp] theorem setLogic_outcome (x : RegIx) (r : Byte) (s : State) : (setLogic x r s).outcome = s.outcome := by unfold setLogic; split <;> rfl
@[simp] theorem setLogic_params (x : RegIx) (r : Byte) (s : State) : (setLogic x r s).params = s.params := by unfold setLogic; split <;> rfl
@[simp] theorem setLogic_inputs (x : RegIx) (r : Byte) (s : State) : (setLogic x r s).inputs = s.inputs := by unfold setLogic; split <;> rfl
@[simp] theorem setLogic_stepNo (x : RegIx) (r : Byte) (s : State) : (setLogic x r s).stepNo = s.stepNo := by unfold setLogic; split <;> rfl

/-! `advanceI` -/
@[simp] theorem advanceI_v (n : Nat) (s : State) : (advanceI n s).v = s.v := by unfold advanceI; split <;> rfl
@[simp] theorem advanceI_pc (n : Nat) (s : State) : (advanceI n s).pc = s.pc := by unfold advanceI; split <;> rfl
@[simp] theorem advanceI_stack (n : Nat) (s : State) : (advanceI n s).stack = s.stack := by unfold advanceI; split <;> rfl
@[simp] theorem advanceI_sp (n : Nat) (s : State) : (advanceI n s).sp = s.sp := by unfold advanceI; split <;> rfl
@[simp] theorem advanceI_dt (n : Nat) (s : State) : (advanceI n s).dt = s.dt := by unfold advanceI; split <;> rfl
@[simp] theorem advanceI_st (n : Nat) (s : State) : (advanceI n s).st = s.st := by unfold advanceI; split <;> rfl
@[simp] theorem advanceI_prevKeys (n : Nat) (s : State) : (advanceI n s).prevKeys = s.prevKeys := by unfold advanceI; split <;> rfl
@[simp] theorem advanceI_fb (n : Nat) (s : State) : (advanceI n s).fb = s.fb := by unfold advanceI; split <;> rfl
@[simp] theorem advanceI_mem (n : Nat) (s : State) : (advanceI n s).mem = s.mem := by unfold advanceI; split <;> rfl
@[simp] theorem advanceI_faulted (n : Nat) (s : State) : (advanceI n s).faulted = s.faulted := by unfold advanceI; split <;> rfl
@[simp] theorem advanceI_outcome (n : Nat) (s : State) : (advanceI n s).outcome = s.outcome := by unfold advanceI; split <;> rfl
@[simp] theorem advanceI_params (n : Nat) (s : State) : (advanceI n s).params = s.params := by unfold advanceI; split <;> rfl
@[simp] theorem advanceI_inputs (n : Nat) (s : State) : (advanceI n s).inputs = s.inputs := by unfold advanceI; split <;> rfl
@[simp] theorem advanceI_stepNo (n : Nat) (s : State) : (advanceI n s).stepNo = s.stepNo := by unfold advanceI; split <;> rfl

/-- What a logic operation writes, by `P_LOGIC_VF`. -/
@[simp] theorem setLogic_v (x : RegIx) (r : Byte) (s : State) :
    (setLogic x r s).v =
      if s.params.logicVf = .cleared then (s.v.set x r).set regVF 0 else s.v.set x r := by
  unfold setLogic
  cases s.params.logicVf <;> simp

/-- What a block transfer writes to `I`, by `P_LDST_I`. -/
@[simp] theorem advanceI_i (n : Nat) (s : State) :
    (advanceI n s).i = if s.params.ldstI = .advance then s.i + BitVec.ofNat 16 n else s.i := by
  unfold advanceI
  cases s.params.ldstI <;> simp

/-- The inputs of a step depend on the schedule and the step number alone. -/
theorem currentInput_congr {s t : State} (hi : t.inputs = s.inputs) (hn : t.stepNo = s.stepNo) :
    currentInput t = currentInput s := by
  unfold currentInput
  rw [hi, hn]

/-- The timer decrement leaves the inputs as they are. -/
@[simp] theorem currentInput_tickTimers (s : State) : currentInput (tickTimers s) = currentInput s :=
  currentInput_congr rfl rfl

/-- Two states are equal when all their fields are. -/
theorem State.ext_fields {s t : State} (h1 : s.v = t.v) (h2 : s.i = t.i) (h3 : s.pc = t.pc)
    (h4 : s.stack = t.stack) (h5 : s.sp = t.sp) (h6 : s.dt = t.dt) (h7 : s.st = t.st)
    (h8 : s.prevKeys = t.prevKeys) (h9 : s.fb = t.fb) (h10 : s.mem = t.mem) (h11 : s.faulted = t.faulted)
    (h12 : s.outcome = t.outcome) (h13 : s.params = t.params) (h14 : s.inputs = t.inputs)
    (h15 : s.stepNo = t.stepNo) : s = t := by
  cases s
  cases t
  simp_all

end Sys2Proof.Machine
end

