-- ==== Sys2Proof/Laws/Memory.lean ====
section
/-! SUPPORT. Memory: the canonical form is kept by every operation, a read after a write, and what is left alone. -/

namespace Sys2Proof.Machine

/-- The canonical form from `lo` on, cell by cell. -/
theorem wfFrom_cons {lo k : Nat} {b : Byte} {m : Memory} :
    Memory.wfFrom lo ((k, b) :: m) = true ↔
      lo ≤ k ∧ k < memSize ∧ b ≠ resetByte k ∧ Memory.wfFrom (k + 1) m = true := by
  simp [Memory.wfFrom, and_assoc]

/-- A canonical form from an address on is one from any lower address on. -/
theorem wfFrom_mono {lo lo' : Nat} (hle : lo' ≤ lo) : ∀ {m : Memory},
    Memory.wfFrom lo m = true → Memory.wfFrom lo' m = true
  | [], _ => rfl
  | (_, _) :: _, h => by
    rw [wfFrom_cons] at h ⊢
    exact ⟨by omega, h.2⟩

/-- An address below the first listed one reads as unlisted. -/
theorem read_of_wfFrom {lo a : Nat} (ha : a < lo) : ∀ {m : Memory},
    Memory.wfFrom lo m = true → m.read a = resetByte a
  | [], _ => rfl
  | (k, b) :: rest, h => by
    rw [wfFrom_cons] at h
    have hk : k ≠ a := by omega
    rw [Memory.read, if_neg hk]
    exact read_of_wfFrom (lo := k + 1) (by omega) h.2.2.2

/-- A cell in front keeps the canonical form. -/
theorem cell_wfFrom {lo a : Nat} {b : Byte} {m : Memory} (hlo : lo ≤ a) (ha : a < memSize)
    (h : Memory.wfFrom (a + 1) m = true) : Memory.wfFrom lo (Memory.cell a b m) = true := by
  unfold Memory.cell
  split
  · exact wfFrom_mono (by omega) h
  · rw [wfFrom_cons]
    exact ⟨hlo, ha, ‹_›, h⟩

/-- A write at an existing address keeps the canonical form. -/
theorem write_wfFrom {lo a : Nat} {b : Byte} (hlo : lo ≤ a) (ha : a < memSize) : ∀ {m : Memory},
    Memory.wfFrom lo m = true → Memory.wfFrom lo (m.write a b) = true
  | [], _ => cell_wfFrom hlo ha rfl
  | (k, c) :: rest, h => by
    have h' := wfFrom_cons.1 h
    unfold Memory.write
    split
    · exact cell_wfFrom hlo ha (wfFrom_cons.2 ⟨by omega, h'.2⟩)
    · split
      · subst k
        exact cell_wfFrom hlo ha h'.2.2.2
      · exact wfFrom_cons.2 ⟨h'.1, h'.2.1, h'.2.2.1, write_wfFrom (by omega) ha h'.2.2.2⟩

/-- A write at an existing address keeps memory in canonical form. -/
theorem write_wf {m : Memory} {a : Nat} {b : Byte} (ha : a < memSize) (h : m.wf = true) : (m.write a b).wf = true :=
  write_wfFrom (Nat.zero_le a) ha h

/-- Writing bytes inside the address space keeps memory in canonical form. -/
theorem writeBytes_wf : ∀ {bs : List Byte} {m : Memory} {a : Nat}, a + bs.length ≤ memSize → m.wf = true →
    (m.writeBytes a bs).wf = true
  | [], _, _, _, h => h
  | b :: bs, m, a, ha, h => by
    rw [List.length_cons] at ha
    exact writeBytes_wf (bs := bs) (by omega) (write_wf (by omega) h)

/-- A cell in front is read at its address, where nothing behind it lists that address. -/
theorem read_cell_same {a : Nat} {b : Byte} {m : Memory} (h : Memory.wfFrom (a + 1) m = true) :
    (Memory.cell a b m).read a = b := by
  unfold Memory.cell
  split
  · rw [read_of_wfFrom (Nat.lt_succ_self a) h, ‹b = resetByte a›]
  · simp [Memory.read]

/-- A cell in front changes no other address. -/
theorem read_cell_ne {a a' : Nat} {b : Byte} {m : Memory} (h : a' ≠ a) :
    (Memory.cell a b m).read a' = m.read a' := by
  unfold Memory.cell
  split
  · rfl
  · rw [Memory.read, if_neg (Ne.symm h)]

/-- A write changes no other address, in any memory. -/
theorem read_write_ne {a a' : Nat} {b : Byte} (h : a' ≠ a) : ∀ {m : Memory}, (m.write a b).read a' = m.read a'
  | [] => read_cell_ne h
  | (k, c) :: rest => by
    unfold Memory.write
    split
    · exact read_cell_ne h
    · split
      · subst k
        rw [read_cell_ne h, Memory.read, if_neg (Ne.symm h)]
      · simp only [Memory.read, read_write_ne h]

/-- A canonical memory reads back what was written. -/
theorem read_write_same_from {lo a : Nat} {b : Byte} : ∀ {m : Memory}, Memory.wfFrom lo m = true →
    (m.write a b).read a = b
  | [], _ => read_cell_same rfl
  | (k, c) :: rest, h => by
    have h' := wfFrom_cons.1 h
    unfold Memory.write
    split
    · exact read_cell_same (wfFrom_cons.2 ⟨by omega, h'.2⟩)
    · split
      · subst k
        exact read_cell_same h'.2.2.2
      · have hk : k ≠ a := by omega
        rw [Memory.read, if_neg hk]
        exact read_write_same_from h'.2.2.2

/-- A canonical memory reads back what was written. -/
theorem read_write_same {m : Memory} {a : Nat} {b : Byte} (h : m.wf = true) : (m.write a b).read a = b :=
  read_write_same_from h

/-- Written bytes change no address outside them, in any memory. -/
theorem read_writeBytes_outside : ∀ {bs : List Byte} {m : Memory} {a a' : Nat}, a' < a ∨ a + bs.length ≤ a' →
    (m.writeBytes a bs).read a' = m.read a'
  | [], _, _, _, _ => rfl
  | b :: bs, m, a, a', h => by
    rw [List.length_cons] at h
    rw [Memory.writeBytes, read_writeBytes_outside (bs := bs) (by omega), read_write_ne (by omega)]

/-- A canonical memory reads back the bytes written. -/
theorem read_writeBytes : ∀ {bs : List Byte} {m : Memory} {a : Nat}, a + bs.length ≤ memSize → m.wf = true →
    ∀ {k : Nat} (hk : k < bs.length), (m.writeBytes a bs).read (a + k) = bs[k]
  | b :: bs, m, a, ha, h, 0, _ => by
    rw [Memory.writeBytes, read_writeBytes_outside (bs := bs) (Or.inl (by omega))]
    exact read_write_same h
  | b :: bs, m, a, ha, h, k + 1, hk => by
    rw [List.length_cons] at ha
    have hk' : k < bs.length := by simpa using hk
    have := read_writeBytes (bs := bs) (m := m.write a b) (a := a + 1) (by omega) (write_wf (by omega) h) hk'
    rw [Memory.writeBytes, show a + (k + 1) = a + 1 + k by omega, this, List.getElem_cons_succ]

/-- The bound check as arithmetic (R53). -/
theorem inRange_iff {base : Word} {n : Nat} : inRange base n = true ↔ n = 0 ∨ base.toNat + n ≤ memSize := by
  simp only [inRange, memSize, Bool.or_eq_true, decide_eq_true_eq]
  omega

/-- The fetch bound as arithmetic (R51). -/
theorem fetch_of_le {m : Memory} {pc : Word} (h : pc.toNat ≤ 0xFFE) :
    m.fetch pc = some (bigEndian (m.read pc.toNat) (m.read (pc.toNat + 1))) := by
  rw [Memory.fetch, if_neg (by omega)]

/-- A fetch past the end of memory reads nothing (R51). -/
theorem fetch_of_gt {m : Memory} {pc : Word} (h : 0xFFE < pc.toNat) : m.fetch pc = none := by
  rw [Memory.fetch, if_pos h]

/-- The word of two bytes as a number (R57). -/
theorem bigEndian_toNat (hi lo : Byte) : (bigEndian hi lo).toNat = 256 * hi.toNat + lo.toNat := by
  have h := Nat.shiftLeft_add_eq_or_of_lt lo.isLt hi.toNat
  rw [bigEndian, BitVec.toNat_append, ← h, Nat.shiftLeft_eq]
  omega

/-- The reset memory is in canonical form. -/
theorem reset_mem_wf : State.reset.mem.wf = true := rfl

end Sys2Proof.Machine
end

