-- ==== Sys2Proof/Laws/Ops.lean ====
section
/-! SUPPORT. What each shared operation can do, said once, and the inversion of `exec` and `step`. -/

namespace Sys2Proof.Machine

/-- A push with room. -/
theorem push_of_lt {w : Word} {s : State} (h : s.sp.val < 16) :
    push w s = some { s with stack := s.stack.set s.sp.val w, sp := ⟨s.sp.val + 1, by omega⟩ } := by
  rw [push, dif_pos h]

/-- A push with no room. -/
theorem push_full {w : Word} {s : State} (h : s.sp.val = 16) : push w s = none := by
  rw [push, dif_neg (by omega)]

/-- A pop of an entry. -/
theorem pop_of_pos {s : State} (h : 0 < s.sp.val) :
    pop s = some (s.stack[s.sp.val - 1], { s with sp := ⟨s.sp.val - 1, by omega⟩ }) := by
  rw [pop, dif_pos h]

/-- A pop of an empty stack. -/
theorem pop_empty {s : State} (h : s.sp.val = 0) : pop s = none := by
  rw [pop, dif_neg (by omega)]

/-- The inversion of a push: there was room, and the entry and the pointer are what changed. -/
theorem push_eq_some {w : Word} {s t : State} (h : push w s = some t) :
    ∃ hlt : s.sp.val < 16, t = { s with stack := s.stack.set s.sp.val w, sp := ⟨s.sp.val + 1, by omega⟩ } := by
  unfold push at h
  split at h
  · exact ⟨‹_›, (Option.some.inj h).symm⟩
  · cases h

/-- The inversion of a pop: an entry was in use, it is what is popped, and the pointer is what changed. -/
theorem pop_eq_some {w : Word} {s t : State} (h : pop s = some (w, t)) :
    ∃ hpos : 0 < s.sp.val, w = s.stack[s.sp.val - 1] ∧ t = { s with sp := ⟨s.sp.val - 1, by omega⟩ } := by
  unfold pop at h
  split at h
  · cases h
    exact ⟨‹_›, rfl, rfl⟩
  · cases h

/-- The flag byte as a number. -/
theorem flagByte_toNat (b : Bool) : (flagByte b).toNat = if b = true then 1 else 0 := by
  cases b <;> rfl

/-- A logic operation with `P_LOGIC_VF = Unchanged` writes the result alone (R144). -/
theorem setLogic_of_unchanged {x : RegIx} {r : Byte} {s : State} (h : s.params.logicVf = .unchanged) :
    setLogic x r s = setV x r s := by
  simp only [setLogic, h]

/-- A logic operation with `P_LOGIC_VF = Cleared` writes the result, then 0 to `VF` (R144). -/
theorem setLogic_of_cleared {x : RegIx} {r : Byte} {s : State} (h : s.params.logicVf = .cleared) :
    setLogic x r s = setResultFlag x r 0 s := by
  simp only [setLogic, h]

/-- `I` after a block transfer, as a number (R164). -/
theorem advanceI_i_toNat (n : Nat) (s : State) :
    (advanceI n s).i.toNat = if s.params.ldstI = .advance then (s.i.toNat + n) % 0x10000 else s.i.toNat := by
  unfold advanceI
  rcases h : s.params.ldstI <;> simp [setI, BitVec.toNat_add]

/-- A button index in range. -/
theorem buttonIndex_of_le {b : Byte} (h : b.toNat ≤ 15) : buttonIndex b = some b.toNat := if_pos h

/-- A button index out of range. -/
theorem buttonIndex_of_gt {b : Byte} (h : 15 < b.toNat) : buttonIndex b = none := if_neg (by omega)

/-- No bit is set: there is no least one. -/
theorem leastBit_eq_none {w : Word} : leastBit w = none ↔ ∀ k < 16, w.getLsbD k = false := by
  simp [leastBit, List.find?_eq_none]

/-- The least bit set. -/
theorem leastBit_eq_some {w : Word} {k : Nat} :
    leastBit w = some k ↔ k < 16 ∧ w.getLsbD k = true ∧ ∀ j < k, w.getLsbD j = false := by
  simp only [leastBit, List.find?_range_eq_some, Bool.not_eq_true', List.mem_range]
  tauto

/-- A register after a block load (R165). -/
theorem loadRegs_getElem {m : Memory} {base : Nat} {v : Registers} {k : Nat} (hk : k < 16) : ∀ n : Nat,
    (loadRegs m base n v)[k] = if k < n then m.read (base + k) else v[k]
  | 0 => by simp [loadRegs]
  | n + 1 => by
    rw [loadRegs, Vector.getElem_setIfInBounds, loadRegs_getElem hk n]
    by_cases h : n = k
    · subst h
      simp
    · simp only [h, if_false]
      congr 1
      exact propext ⟨by omega, by omega⟩

/-- The bytes of a block store (R164). -/
theorem regBytes_length (x : RegIx) (s : State) : (regBytes x s).length = x.val + 1 := by
  simp [regBytes]

/-- One byte of a block store (R164). -/
theorem regBytes_getElem {x : RegIx} {s : State} {k : Nat} (hk : k < (regBytes x s).length) (hk' : k < 16) :
    (regBytes x s)[k] = s.v[k] := by
  simp [regBytes]

/-- What an executed instruction can be: a fault taken at it, or a completed effect that leaves the latch, the
bitmask, the parameters and the inputs as they are. -/
inductive ExecResult (i : Instr) (s t : State) : Prop where
  | fault (kind : FaultKind) (hk : kind ≠ .invalidRegisterIndex) (h : t = raiseAt i kind s)
  | done (k : NextPc) (ho : t.outcome = some (outcomeOf k)) (hf : t.faulted = s.faulted)
      (hk : t.prevKeys = s.prevKeys) (hp : t.params = s.params) (hi : t.inputs = s.inputs)
      (hn : t.stepNo = s.stepNo)

/-- An instruction that ends in `advance` over a state that keeps the latch and the inputs is done. -/
theorem ExecResult.of_advance {i : Instr} {s u : State} (k : NextPc) (hf : u.faulted = s.faulted)
    (hk : u.prevKeys = s.prevKeys) (hp : u.params = s.params) (hi : u.inputs = s.inputs) (hn : u.stepNo = s.stepNo) :
    ExecResult i s (advance k u) :=
  .done k rfl hf hk hp hi hn

/-- Every instruction of the table answers a next state (R105), and it is one of the two of `ExecResult`. -/
theorem exec_cases (i : Instr) (s : State) : ∃ t, exec i s = .next t ∧ ExecResult i s t := by
  cases i
  case ret =>
    refine ⟨_, rfl, ?_⟩
    by_cases h : 0 < s.sp.val
    · simp only [pop_of_pos h]
      exact .of_advance _ rfl rfl rfl rfl rfl
    · simp only [pop_empty (show s.sp.val = 0 by omega)]
      exact .fault _ (by decide) rfl
  case call nnn =>
    refine ⟨_, rfl, ?_⟩
    by_cases h : s.sp.val < 16
    · simp only [push_of_lt h]
      exact .of_advance _ rfl rfl rfl rfl rfl
    · simp only [push_full (show s.sp.val = 16 by omega)]
      exact .fault _ (by decide) rfl
  case skp x | sknp x =>
    refine ⟨_, rfl, ?_⟩
    split
    · exact .fault _ (by decide) rfl
    · exact .of_advance _ rfl rfl rfl rfl rfl
  case ldVxK x =>
    refine ⟨_, rfl, ?_⟩
    split <;> exact .of_advance _ rfl rfl rfl rfl rfl
  case drw | ldBVx =>
    refine ⟨_, rfl, ?_⟩
    split
    · exact .of_advance _ rfl rfl rfl rfl rfl
    · exact .fault _ (by decide) rfl
  case ldMemVx | ldVxMem =>
    refine ⟨_, rfl, ?_⟩
    split
    · exact .of_advance _ (by simp) (by simp) (by simp) (by simp) (by simp)
    · exact .fault _ (by decide) rfl
  case orReg | andReg | xorReg =>
    exact ⟨_, rfl, .of_advance _ (by simp) (by simp) (by simp) (by simp) (by simp)⟩
  all_goals exact ⟨_, rfl, .of_advance _ rfl rfl rfl rfl rfl⟩

/-- What a step that answers a next state did (R103). -/
inductive StepResult (s t : State) : Prop where
  | fetchFault (hpc : 0xFFE < s.pc.toNat) (h : t = endStep (raise .capacityFault none (tickTimers s)))
  | decodeFault (op : Word) (e : DecodeError) (hop : s.mem.fetch s.pc = some op) (he : decode op = .error e)
      (h : t = endStep (raise .decodeFault (some op) (tickTimers s)))
  | ran (op : Word) (i : Instr) (u : State) (hop : s.mem.fetch s.pc = some op) (hi : decode op = .ok i)
      (hu : exec i (tickTimers s) = .next u) (hr : ExecResult i (tickTimers s) u) (h : t = endStep u)

/-- A faulted machine has no step (R102). -/
theorem step_of_faulted {s : State} (h : s.faulted = true) : step s = .fault .stepAfterFault := by
  rw [step, if_pos h]
  rfl

/-- A step of a machine that is not faulted answers a next state, of one of three kinds (R103). -/
theorem step_of_not_faulted {s : State} (h : s.faulted = false) : ∃ t, step s = .next t ∧ StepResult s t := by
  simp only [step, h, fetchDecode, tickTimers_mem, tickTimers_pc]
  rcases hop : s.mem.fetch s.pc with _ | op
  · have hpc : 0xFFE < s.pc.toNat := by
      by_contra hle
      rw [fetch_of_le (by omega)] at hop
      cases hop
    exact ⟨_, rfl, .fetchFault hpc rfl⟩
  · rcases hd : decode op with e | i
    · simp only [hd]
      exact ⟨_, rfl, .decodeFault op e hop hd rfl⟩
    · obtain ⟨u, hu, hr⟩ := exec_cases i (tickTimers s)
      simp only [hd, hu]
      exact ⟨_, rfl, .ran op i u hop hd hu hr rfl⟩

/-- The inversion of `step`: the machine was not faulted and the step is of one of three kinds. -/
theorem step_cases {s t : State} (h : step s = .next t) : s.faulted = false ∧ StepResult s t := by
  rcases hf : s.faulted with _ | _
  · obtain ⟨u, hu, hr⟩ := step_of_not_faulted hf
    rw [hu] at h
    cases h
    exact ⟨rfl, hr⟩
  · rw [step_of_faulted hf] at h
    cases h

/-- The instruction at the pc, from the word fetched. -/
theorem instrAt_of_decode {s : State} {op : Word} {i : Instr} (hop : s.mem.fetch s.pc = some op)
    (hi : decode op = .ok i) : instrAt s = some i := by
  simp only [instrAt, hop, hi]

/-- Placing an instruction word keeps memory in canonical form (R57). -/
theorem withFetchWord_wf {s : State} {nbits w : Nat} (hp : s.pc.toNat ≤ 0xFFE) (h : s.mem.wf = true) :
    (s.withFetchWord nbits w).mem.wf = true :=
  writeBytes_wf (by simp only [List.length_cons, List.length_nil, memSize]; omega) h

/-- The step after placing an instruction word fetches it (R51). -/
theorem fetch_withFetchWord {s : State} {nbits w : Nat} (hp : s.pc.toNat ≤ 0xFFE) (h : s.mem.wf = true) :
    (s.withFetchWord nbits w).mem.fetch s.pc = some (tableWord nbits w) := by
  have hlen : s.pc.toNat + [highByte (tableWord nbits w), lowByte (tableWord nbits w)].length ≤ memSize := by
    simp only [List.length_cons, List.length_nil, memSize]
    omega
  have h0 := read_writeBytes hlen h (k := 0) (by simp)
  have h1 := read_writeBytes hlen h (k := 1) (by simp)
  rw [Nat.add_zero] at h0
  simp only [State.withFetchWord, setMem, Memory.writeWord, fetch_of_le hp, h0, h1]
  refine congrArg some (BitVec.eq_of_getLsbD_eq fun i hi => ?_)
  simp only [List.getElem_cons_zero, List.getElem_cons_succ, bigEndian, BitVec.getLsbD_append, highByte, lowByte,
    BitVec.getLsbD_extractLsb']
  split
  · simp [*]
  · have : i - 8 < 8 := by omega
    simp only [this, decide_true, Bool.true_and]
    congr 1
    omega

end Sys2Proof.Machine
end

