-- ==== Sys2Proof/Laws/Display.lean ====
section
/-! SUPPORT. The blitter: what toggling one pixel does, and what a sprite row and a whole sprite do to every pixel. -/

namespace Sys2Proof.Machine

/-- A pixel of the screen lies inside the framebuffer: the guard of R205 never discards one. -/
theorem pixelByte_lt {col row : Nat} (hc : col < 64) (hr : row < 32) : pixelByte col row < 256 := by
  unfold pixelByte
  omega

/-- Toggling a pixel of the screen flips it and leaves every other pixel. -/
theorem pixel_togglePixel {fb : FrameBuffer} {col row col' row' : Nat} (hc : col < 64) (hr : row < 32)
    (hc' : col' < 64) (hr' : row' < 32) :
    pixel (togglePixel fb col row) col' row' =
      if col' = col ∧ row' = row then !pixel fb col row else pixel fb col' row' := by
  have hb := pixelByte_lt hc hr
  have hb' := pixelByte_lt hc' hr'
  simp only [pixel, togglePixel, hb, hb', dif_pos, Vector.getElem_set]
  by_cases he : pixelByte col row = pixelByte col' row'
  · have hrow : row' = row := by
      unfold pixelByte at he
      omega
    have hbit : pixelBit col < 8 := by
      unfold pixelBit
      omega
    have hbit' : pixelBit col' < 8 := by
      unfold pixelBit
      omega
    simp only [he, if_true, BitVec.getLsbD_xor, BitVec.getLsbD_shiftLeft, BitVec.getLsbD_one, hbit',
      decide_true, Bool.true_and, hrow, and_true]
    by_cases hcol : col' = col
    · subst hcol
      simp
    · have hne : pixelBit col' ≠ pixelBit col := by
        unfold pixelBit
        unfold pixelByte at he
        omega
      have hz : (!decide (pixelBit col' < pixelBit col) && decide (pixelBit col' - pixelBit col = 0)) = false := by
        simp only [Bool.and_eq_false_iff, Bool.not_eq_false', decide_eq_true_eq, decide_eq_false_iff_not]
        omega
      simp only [hcol, if_false, show (0 < 8) = True by simp, decide_true, Bool.true_and, hz, Bool.xor_false]
  · have hne : ¬ (col' = col ∧ row' = row) := by
      rintro ⟨rfl, rfl⟩
      exact he rfl
    simp only [he, hne, if_false]

/-- The columns that the first `n` bits of a sprite row cover (R202, R204). -/
def rowCovers (bits : Byte) (x0 n col : Nat) : Prop := ∃ c < n, bits.getLsbD (7 - c) = true ∧ col = (x0 + c) % 64

/-- One bit more. -/
theorem rowCovers_succ {bits : Byte} {x0 n col : Nat} :
    rowCovers bits x0 (n + 1) col ↔
      rowCovers bits x0 n col ∨ (bits.getLsbD (7 - n) = true ∧ col = (x0 + n) % 64) := by
  constructor
  · rintro ⟨c, hc, h⟩
    rcases Nat.lt_succ_iff_lt_or_eq.1 hc with hlt | rfl
    · exact .inl ⟨c, hlt, h⟩
    · exact .inr h
  · rintro (⟨c, hc, h⟩ | h)
    · exact ⟨c, by omega, h⟩
    · exact ⟨n, by omega, h⟩

/-- What a sprite row does (R201 to R204): a covered pixel is flipped, every other pixel stays, and a collision is a
covered pixel that was set. -/
structure RowLaw (bits : Byte) (x0 row n : Nat) (p q : Blit) : Prop where
  flipped : ∀ col < 64, rowCovers bits x0 n col → pixel q.fb col row = !pixel p.fb col row
  kept : ∀ col < 64, ∀ rw < 32, ¬ (rw = row ∧ rowCovers bits x0 n col) → pixel q.fb col rw = pixel p.fb col rw
  coll : q.coll = true ↔ p.coll = true ∨ ∃ col < 64, rowCovers bits x0 n col ∧ pixel p.fb col row = true

/-- The law of a sprite row: eight columns are distinct modulo 64, so no pixel is toggled twice (R204). -/
theorem drawBits_law {bits : Byte} {x0 row : Nat} (hr : row < 32) {p : Blit} : ∀ {n : Nat}, n ≤ 8 →
    RowLaw bits x0 row n p (drawBits bits x0 row n p)
  | 0, _ => by
    refine ⟨?_, fun _ _ _ _ _ => rfl, ?_⟩
    · rintro _ _ ⟨c, hc, _⟩
      omega
    · constructor
      · exact .inl
      · rintro (h | ⟨_, _, ⟨c, hc, _⟩, _⟩)
        · exact h
        · omega
  | n + 1, hn => by
    have ih := drawBits_law (bits := bits) (x0 := x0) hr (p := p) (n := n) (by omega)
    have hnew : ¬ rowCovers bits x0 n ((x0 + n) % 64) := by
      rintro ⟨c, hc, _, he⟩
      omega
    have hcol : (x0 + n) % 64 < 64 := Nat.mod_lt _ (by omega)
    unfold drawBits
    split
    · rename_i hbit
      have hsame := ih.kept _ hcol row hr (fun h => hnew h.2)
      refine ⟨?_, ?_, ?_⟩
      · intro col hc hcov
        simp only [drawPixel, pixel_togglePixel hcol hr hc hr, and_true]
        rcases rowCovers_succ.1 hcov with h | ⟨_, rfl⟩
        · have hne : col ≠ (x0 + n) % 64 := by
            rintro rfl
            exact hnew h
          rw [if_neg hne, ih.flipped col hc h]
        · rw [if_pos rfl, hsame]
      · intro col hc rw hrw hncov
        simp only [drawPixel, pixel_togglePixel hcol hr hc hrw]
        rw [if_neg (fun h => hncov ⟨h.2, rowCovers_succ.2 (.inr ⟨hbit, h.1⟩)⟩)]
        exact ih.kept col hc rw hrw (fun h => hncov ⟨h.1, rowCovers_succ.2 (.inl h.2)⟩)
      · simp only [drawPixel, Bool.or_eq_true, ih.coll, hsame]
        constructor
        · rintro ((h | ⟨col, hc, hcov, hp⟩) | h)
          · exact .inl h
          · exact .inr ⟨col, hc, rowCovers_succ.2 (.inl hcov), hp⟩
          · exact .inr ⟨_, hcol, rowCovers_succ.2 (.inr ⟨hbit, rfl⟩), h⟩
        · rintro (h | ⟨col, hc, hcov, hp⟩)
          · exact .inl (.inl h)
          · rcases rowCovers_succ.1 hcov with h | ⟨_, rfl⟩
            · exact .inl (.inr ⟨col, hc, h, hp⟩)
            · exact .inr hp
    · rename_i hbit
      have hiff : ∀ col, rowCovers bits x0 (n + 1) col ↔ rowCovers bits x0 n col := fun col => by
        rw [rowCovers_succ]
        exact or_iff_left (fun h => hbit h.1)
      exact ⟨fun col hc h => ih.flipped col hc ((hiff col).1 h),
        fun col hc rw hrw h => ih.kept col hc rw hrw (fun h' => h ⟨h'.1, (hiff col).2 h'.2⟩),
        by simpa only [hiff] using ih.coll⟩

/-- The pixels that the first `n` rows of a sprite cover (R202, R204). -/
def spriteCovers (m : Memory) (base x0 y0 n col row : Nat) : Prop :=
  ∃ r < n, row = (y0 + r) % 32 ∧ rowCovers (m.read (base + r)) x0 8 col

/-- One row more. -/
theorem spriteCovers_succ {m : Memory} {base x0 y0 n col row : Nat} :
    spriteCovers m base x0 y0 (n + 1) col row ↔
      spriteCovers m base x0 y0 n col row ∨
        (row = (y0 + n) % 32 ∧ rowCovers (m.read (base + n)) x0 8 col) := by
  constructor
  · rintro ⟨r, hr, h⟩
    rcases Nat.lt_succ_iff_lt_or_eq.1 hr with hlt | rfl
    · exact .inl ⟨r, hlt, h⟩
    · exact .inr h
  · rintro (⟨r, hr, h⟩ | h)
    · exact ⟨r, by omega, h⟩
    · exact ⟨n, by omega, h⟩

/-- What a sprite does to every pixel of the screen (R201 to R204). -/
structure SpriteLaw (m : Memory) (base x0 y0 n : Nat) (p q : Blit) : Prop where
  flipped : ∀ col < 64, ∀ row < 32, spriteCovers m base x0 y0 n col row → pixel q.fb col row = !pixel p.fb col row
  kept : ∀ col < 64, ∀ row < 32, ¬ spriteCovers m base x0 y0 n col row → pixel q.fb col row = pixel p.fb col row
  coll : q.coll = true ↔ p.coll = true ∨
    ∃ col < 64, ∃ row < 32, spriteCovers m base x0 y0 n col row ∧ pixel p.fb col row = true

/-- The law of a sprite: fewer than 32 rows are distinct modulo 32, so no pixel is toggled twice (R204). -/
theorem drawRows_law {m : Memory} {base x0 y0 : Nat} {p : Blit} : ∀ {n : Nat}, n ≤ 15 →
    SpriteLaw m base x0 y0 n p (drawRows m base x0 y0 n p)
  | 0, _ => by
    refine ⟨?_, fun _ _ _ _ _ => rfl, ?_⟩
    · rintro _ _ _ _ ⟨r, hr, _⟩
      omega
    · constructor
      · exact .inl
      · rintro (h | ⟨_, _, _, _, ⟨r, hr, _⟩, _⟩)
        · exact h
        · omega
  | n + 1, hn => by
    have ih := drawRows_law (m := m) (base := base) (x0 := x0) (y0 := y0) (p := p) (n := n) (by omega)
    have hrow : (y0 + n) % 32 < 32 := Nat.mod_lt _ (by omega)
    have hl := drawBits_law (bits := m.read (base + n)) (x0 := x0) hrow (p := drawRows m base x0 y0 n p)
      (n := 8) (by omega)
    have hnew : ∀ col, ¬ spriteCovers m base x0 y0 n col ((y0 + n) % 32) := by
      rintro col ⟨r, hr, he, _⟩
      omega
    have hsame : ∀ col < 64, pixel (drawRows m base x0 y0 n p).fb col ((y0 + n) % 32) =
        pixel p.fb col ((y0 + n) % 32) := fun col hc => ih.kept col hc _ hrow (hnew col)
    refine ⟨?_, ?_, ?_⟩
    · intro col hc row hr hcov
      rcases spriteCovers_succ.1 hcov with h | ⟨rfl, h⟩
      · have hne : row ≠ (y0 + n) % 32 := by
          rintro rfl
          exact hnew col h
        exact (hl.kept col hc row hr (fun h' => hne h'.1)).trans (ih.flipped col hc row hr h)
      · exact (hl.flipped col hc h).trans (by rw [hsame col hc])
    · intro col hc row hr hncov
      have h1 : ¬ (row = (y0 + n) % 32 ∧ rowCovers (m.read (base + n)) x0 8 col) := fun h =>
        hncov (spriteCovers_succ.2 (.inr h))
      exact (hl.kept col hc row hr h1).trans
        (ih.kept col hc row hr (fun h => hncov (spriteCovers_succ.2 (.inl h))))
    · rw [drawRows, hl.coll, ih.coll]
      constructor
      · rintro ((h | ⟨col, hc, row, hr, hcov, hp⟩) | ⟨col, hc, hcov, hp⟩)
        · exact .inl h
        · exact .inr ⟨col, hc, row, hr, spriteCovers_succ.2 (.inl hcov), hp⟩
        · exact .inr ⟨col, hc, _, hrow, spriteCovers_succ.2 (.inr ⟨rfl, hcov⟩), (hsame col hc) ▸ hp⟩
      · rintro (h | ⟨col, hc, row, hr, hcov, hp⟩)
        · exact .inl (.inl h)
        · rcases spriteCovers_succ.1 hcov with h | ⟨rfl, h⟩
          · exact .inl (.inr ⟨col, hc, row, hr, h, hp⟩)
          · exact .inr ⟨col, hc, h, (hsame col hc).symm ▸ hp⟩

/-- Two framebuffers with the same pixels are the same 256 bytes (R36). -/
theorem frameBuffer_ext {a b : FrameBuffer} (h : ∀ col < 64, ∀ row < 32, pixel a col row = pixel b col row) :
    a = b := by
  refine Vector.ext fun i hi => BitVec.eq_of_getLsbD_eq fun j hj => ?_
  have hc : (i % 8) * 8 + (7 - j) < 64 := by omega
  have hr : i / 8 < 32 := by omega
  have := h _ hc _ hr
  have hb : pixelByte ((i % 8) * 8 + (7 - j)) (i / 8) = i := by
    unfold pixelByte
    omega
  have hj' : pixelBit ((i % 8) * 8 + (7 - j)) = j := by
    unfold pixelBit
    omega
  simpa only [pixel, hb, hj', hi, dif_pos] using this

end Sys2Proof.Machine
end

