-- ==== Sys2Proof/Laws/PerInstr.lean ====
section
/-! SUPPORT. Statements about every instruction, one lemma per constructor. Family `EncodesRow`: the word of an
instruction lies in its row of the opcode map (30_encoding.md rule R75). -/

namespace Sys2Proof.Laws

/-- The fixed bits of a word of format `NNN` (R73, R75). -/
theorem encodeNNN_row (c : Nibble) (nnn : Addr) : encodeNNN c nnn &&& 0xF000 = encodeNNN c 0 := by
  apply BitVec.eq_of_getLsbD_eq
  intro i hi
  rw [BitVec.getLsbD_and, encodeNNN_getLsbD, encodeNNN_getLsbD]
  interval_cases i <;> simp

/-- The fixed bits of a word of format `XNN` (R73, R75). -/
theorem encodeXNN_row (c : Nibble) (x : RegIx) (nn : Byte) : encodeXNN c x nn &&& 0xF000 = encodeXNN c 0 0 := by
  apply BitVec.eq_of_getLsbD_eq
  intro i hi
  rw [BitVec.getLsbD_and, encodeXNN_getLsbD, encodeXNN_getLsbD]
  interval_cases i <;> simp [regField]

/-- The fixed bits of a word of format `X` (R73, R75). -/
theorem encodeX_row (c : Nibble) (x : RegIx) (nn : Byte) : encodeXNN c x nn &&& 0xF0FF = encodeXNN c 0 nn := by
  apply BitVec.eq_of_getLsbD_eq
  intro i hi
  rw [BitVec.getLsbD_and, encodeXNN_getLsbD, encodeXNN_getLsbD]
  interval_cases i <;> simp [regField]

/-- The fixed bits of a word of format `XY` (R73, R75). -/
theorem encodeXY_row (c : Nibble) (x y : RegIx) (n : Nibble) : encodeXY c x y n &&& 0xF00F = encodeXY c 0 0 n := by
  apply BitVec.eq_of_getLsbD_eq
  intro i hi
  rw [BitVec.getLsbD_and, encodeXY_getLsbD, encodeXY_getLsbD]
  interval_cases i <;> simp [regField]

/-- The fixed bits of a word of format `XYN` (R73, R75). -/
theorem encodeXYN_row (c : Nibble) (x y : RegIx) (n : Nibble) : encodeXY c x y n &&& 0xF000 = encodeXY c 0 0 0 := by
  apply BitVec.eq_of_getLsbD_eq
  intro i hi
  rw [BitVec.getLsbD_and, encodeXY_getLsbD, encodeXY_getLsbD]
  interval_cases i <;> simp [regField]

/-- The word of the instruction matches the mask and the value of its row. -/
def EncodesRow.Statement (i : Instr) : Prop := (opcodeRow i).covers (encode i) = true

theorem EncodesRow.cls : EncodesRow.Statement .cls := rfl

theorem EncodesRow.ret : EncodesRow.Statement .ret := rfl

theorem EncodesRow.jp (nnn : Addr) : EncodesRow.Statement (.jp nnn) := beq_iff_eq.2 (encodeNNN_row _ nnn)

theorem EncodesRow.call (nnn : Addr) : EncodesRow.Statement (.call nnn) := beq_iff_eq.2 (encodeNNN_row _ nnn)

theorem EncodesRow.seImm (x : RegIx) (nn : Byte) : EncodesRow.Statement (.seImm x nn) :=
  beq_iff_eq.2 (encodeXNN_row _ x nn)

theorem EncodesRow.sneImm (x : RegIx) (nn : Byte) : EncodesRow.Statement (.sneImm x nn) :=
  beq_iff_eq.2 (encodeXNN_row _ x nn)

theorem EncodesRow.seReg (x y : RegIx) : EncodesRow.Statement (.seReg x y) := beq_iff_eq.2 (encodeXY_row _ x y _)

theorem EncodesRow.ldImm (x : RegIx) (nn : Byte) : EncodesRow.Statement (.ldImm x nn) :=
  beq_iff_eq.2 (encodeXNN_row _ x nn)

theorem EncodesRow.addImm (x : RegIx) (nn : Byte) : EncodesRow.Statement (.addImm x nn) :=
  beq_iff_eq.2 (encodeXNN_row _ x nn)

theorem EncodesRow.ldReg (x y : RegIx) : EncodesRow.Statement (.ldReg x y) := beq_iff_eq.2 (encodeXY_row _ x y _)

theorem EncodesRow.orReg (x y : RegIx) : EncodesRow.Statement (.orReg x y) := beq_iff_eq.2 (encodeXY_row _ x y _)

theorem EncodesRow.andReg (x y : RegIx) : EncodesRow.Statement (.andReg x y) := beq_iff_eq.2 (encodeXY_row _ x y _)

theorem EncodesRow.xorReg (x y : RegIx) : EncodesRow.Statement (.xorReg x y) := beq_iff_eq.2 (encodeXY_row _ x y _)

theorem EncodesRow.addReg (x y : RegIx) : EncodesRow.Statement (.addReg x y) := beq_iff_eq.2 (encodeXY_row _ x y _)

theorem EncodesRow.sub (x y : RegIx) : EncodesRow.Statement (.sub x y) := beq_iff_eq.2 (encodeXY_row _ x y _)

theorem EncodesRow.shr (x y : RegIx) : EncodesRow.Statement (.shr x y) := beq_iff_eq.2 (encodeXY_row _ x y _)

theorem EncodesRow.subn (x y : RegIx) : EncodesRow.Statement (.subn x y) := beq_iff_eq.2 (encodeXY_row _ x y _)

theorem EncodesRow.shl (x y : RegIx) : EncodesRow.Statement (.shl x y) := beq_iff_eq.2 (encodeXY_row _ x y _)

theorem EncodesRow.sneReg (x y : RegIx) : EncodesRow.Statement (.sneReg x y) := beq_iff_eq.2 (encodeXY_row _ x y _)

theorem EncodesRow.ldI (nnn : Addr) : EncodesRow.Statement (.ldI nnn) := beq_iff_eq.2 (encodeNNN_row _ nnn)

theorem EncodesRow.jpV0 (nnn : Addr) : EncodesRow.Statement (.jpV0 nnn) := beq_iff_eq.2 (encodeNNN_row _ nnn)

theorem EncodesRow.rnd (x : RegIx) (nn : Byte) : EncodesRow.Statement (.rnd x nn) :=
  beq_iff_eq.2 (encodeXNN_row _ x nn)

theorem EncodesRow.drw (x y : RegIx) (n : Nibble) : EncodesRow.Statement (.drw x y n) :=
  beq_iff_eq.2 (encodeXYN_row _ x y n)

theorem EncodesRow.skp (x : RegIx) : EncodesRow.Statement (.skp x) := beq_iff_eq.2 (encodeX_row _ x _)

theorem EncodesRow.sknp (x : RegIx) : EncodesRow.Statement (.sknp x) := beq_iff_eq.2 (encodeX_row _ x _)

theorem EncodesRow.ldVxDt (x : RegIx) : EncodesRow.Statement (.ldVxDt x) := beq_iff_eq.2 (encodeX_row _ x _)

theorem EncodesRow.ldVxK (x : RegIx) : EncodesRow.Statement (.ldVxK x) := beq_iff_eq.2 (encodeX_row _ x _)

theorem EncodesRow.ldDtVx (x : RegIx) : EncodesRow.Statement (.ldDtVx x) := beq_iff_eq.2 (encodeX_row _ x _)

theorem EncodesRow.ldStVx (x : RegIx) : EncodesRow.Statement (.ldStVx x) := beq_iff_eq.2 (encodeX_row _ x _)

theorem EncodesRow.addIVx (x : RegIx) : EncodesRow.Statement (.addIVx x) := beq_iff_eq.2 (encodeX_row _ x _)

theorem EncodesRow.ldFVx (x : RegIx) : EncodesRow.Statement (.ldFVx x) := beq_iff_eq.2 (encodeX_row _ x _)

theorem EncodesRow.ldBVx (x : RegIx) : EncodesRow.Statement (.ldBVx x) := beq_iff_eq.2 (encodeX_row _ x _)

theorem EncodesRow.ldMemVx (x : RegIx) : EncodesRow.Statement (.ldMemVx x) := beq_iff_eq.2 (encodeX_row _ x _)

theorem EncodesRow.ldVxMem (x : RegIx) : EncodesRow.Statement (.ldVxMem x) := beq_iff_eq.2 (encodeX_row _ x _)

end Sys2Proof.Laws
end

