-- ==== Sys2Proof/Tests/Slice0.lean ====
section
/-! SUPPORT. Tests: words written out from 30_encoding.md rules R71 and R75, what is refused, one step of every
instruction from the vectors of 95_test_vectors.md, and a witness for the hypotheses of every obligation. -/

namespace Sys2Proof.Tests

open Sys2Proof Sys2Proof.Machine Sys2Proof.Claims

/-! ## Words -/

theorem test_decode_display_and_return :
    decode 0b0000000011100000 = .ok .cls ∧ decode 0b0000000011101110 = .ok .ret := by decide

theorem test_decode_jumps_and_calls :
    decode 0b0001001000110100 = .ok (.jp 0x234) ∧ decode 0b0010001100000000 = .ok (.call 0x300) ∧
    decode 0b1011111100000001 = .ok (.jpV0 0xF01) := by decide

theorem test_decode_skips :
    decode 0b0011001100010000 = .ok (.seImm 3 0x10) ∧ decode 0b0100001100010000 = .ok (.sneImm 3 0x10) ∧
    decode 0b0101000100100000 = .ok (.seReg 1 2) ∧ decode 0b1001000100100000 = .ok (.sneReg 1 2) := by decide

/-- `0x6A07` and `0x7A05` are the source's own words (S1). -/
theorem test_decode_immediates :
    decode 0x6A07 = .ok (.ldImm 0xA 0x07) ∧ decode 0x7A05 = .ok (.addImm 0xA 0x05) ∧
    decode 0b1100001100001111 = .ok (.rnd 3 0x0F) := by decide

theorem test_decode_moves_and_logic :
    decode 0b1000000100100000 = .ok (.ldReg 1 2) ∧ decode 0b1000000100100001 = .ok (.orReg 1 2) ∧
    decode 0b1000000100100010 = .ok (.andReg 1 2) ∧ decode 0b1000000100100011 = .ok (.xorReg 1 2) := by decide

theorem test_decode_arithmetic :
    decode 0b1000111111100100 = .ok (.addReg 0xF 0xE) ∧ decode 0b1000000000010101 = .ok (.sub 0 1) ∧
    decode 0b1000001000000110 = .ok (.shr 2 0) ∧ decode 0b1000000000010111 = .ok (.subn 0 1) ∧
    decode 0b1000000100101110 = .ok (.shl 1 2) := by decide

theorem test_decode_index_and_memory :
    decode 0b1010001100000000 = .ok (.ldI 0x300) ∧ decode 0b1111010000011110 = .ok (.addIVx 4) ∧
    decode 0b1111000000101001 = .ok (.ldFVx 0) ∧ decode 0b1111000000110011 = .ok (.ldBVx 0) ∧
    decode 0b1111001001010101 = .ok (.ldMemVx 2) ∧ decode 0b1111001001100101 = .ok (.ldVxMem 2) := by decide

theorem test_decode_timers_and_input :
    decode 0b1111001100000111 = .ok (.ldVxDt 3) ∧ decode 0b1111010100001010 = .ok (.ldVxK 5) ∧
    decode 0b1111001100010101 = .ok (.ldDtVx 3) ∧ decode 0b1111001100011000 = .ok (.ldStVx 3) ∧
    decode 0b1110000110011110 = .ok (.skp 1) ∧ decode 0b1110000110100001 = .ok (.sknp 1) := by decide

theorem test_decode_draw : decode 0b1101001101001111 = .ok (.drw 3 4 0xF) := by decide

/-- Bytes in memory order, the high byte first (R57), with what follows left over. -/
theorem test_decode_bytes : decodeBytes [0x6A, 0x07, 0x7A] = .ok (.ldImm 0xA 0x07, [0x7A]) := by decide

/-- One byte is no instruction (R70). -/
theorem test_decode_truncated : decodeBytes [0x6A] = .error .truncated := by decide

theorem test_table_word : decodeTableWord 16 0xF50A = some (.ldVxK 5) ∧ decodeTableWord 16 0x0123 = none := by decide

/-! ## What is refused -/

/-- A word that no row covers and the decoder rejects by name. -/
def refusedWord (op : Word) : Bool := !wordDefined op && decide (decode op = .error (.undefinedWord op))

/-- An illegal word of each of the six sets of R77 (V1 to V7): neither covered by a row nor decoded. -/
theorem test_illegal_words :
    [0x0123, 0x0000, 0x5121, 0x8008, 0x800F, 0x9121, 0xE0FF, 0xF0FF].all refusedWord = true := by decide

/-- The neighbours of `00E0` and `00EE`: the SUPER-CHIP words `00FE`, `00FF` and a machine-code call (R77). -/
theorem test_illegal_category_0 : [0x00FE, 0x00FF, 0x00E1, 0x01E0].all refusedWord = true := by decide

/-- The greatest image is let in and one byte more is refused (S9). -/
theorem test_image_length (b : Byte) :
    imageFits (List.replicate 3584 b) = true ∧ imageFits (List.replicate 3585 b) = false := by
  constructor <;> (unfold imageFits maxImage; rw [List.length_replicate]; decide)

/-- Each condition of the canonical form of memory refuses an ill-formed list: addresses that do not rise, an
address past 0xFFF, a cell that lists what its address reads as (the font byte 0xF0 at 0, 0 at 0x300). -/
theorem test_memory_form :
    Memory.wf [(0x300, 1), (0x301, 2)] = true ∧ Memory.wf [(0x301, 2), (0x300, 1)] = false ∧
    Memory.wf [(0x300, 1), (0x300, 2)] = false ∧ Memory.wf [(0x1000, 1)] = false ∧
    Memory.wf [(0, 0xF0)] = false ∧ Memory.wf [(0x300, 0)] = false := by decide

/-- The codes of R230. -/
theorem test_fault_codes :
    [FaultKind.decodeFault, .capacityFault, .stackOverflow, .stackUnderflow, .invalidButtonIndex,
      .invalidRegisterIndex].map faultCode = [0, 1, 2, 3, 4, 5] := by decide

/-! ## One step

`prep op` is the start state of the vectors: after reset, the word at the pc, inputs all zero unless given. -/

/-- The start state with the inputs of one step. -/
def prepWith (keys : Word) (tick : Bool) (rnd : Byte) (op : Nat) : State :=
  State.withFetchWord { State.reset with inputs := [{ keys := keys, tick := tick, rnd := rnd }] } 16 op

/-- The start state with all inputs zero. -/
def prep (op : Nat) : State := prepWith 0 false 0 op

/-- Registers set before the step. -/
def regs (l : List (RegIx × Byte)) (s : State) : State := l.foldl (fun s p => setV p.1 p.2 s) s

/-- Memory bytes set before the step. -/
def bytes (a : Nat) (l : List Byte) (s : State) : State := setMem (s.mem.writeBytes a l) s

/-- The state after one step. -/
def after (s : State) : Option State :=
  match step s with
  | .next t => some t
  | _ => none

/-- What `p` sees after one step. -/
def seen {α : Type} (p : State → α) (s : State) : Option α := (after s).map p

/-- The fault recorded by one step, if any. -/
def faultSeen (s : State) : Option (Option CycleOutcome × Bool) := seen (fun t => (t.outcome, t.faulted)) s

/-- `after` is `step`. -/
theorem step_of_after {s t : State} (h : after s = some t) : step s = .next t := by
  unfold after at h
  split at h
  · cases h
    assumption
  · cases h

/-- A step whose next state passes a test. -/
theorem step_of_seen {s : State} {p : State → Bool} (h : seen p s = some true) : ∃ t, step s = .next t ∧ p t = true := by
  unfold seen at h
  rcases ha : after s with _ | t
  · simp [ha] at h
  · exact ⟨t, step_of_after ha, by simpa [ha] using h⟩

/-- V1: the illegal word, the fault code's kind, word and address. -/
theorem test_step_decode_fault :
    faultSeen (prep 0x0123) = some (some (.fault .decodeFault (some 0x0123) 0x200), true) := by decide

/-- V8: a decode fault keeps the decrement and does not write `prevKeys`. -/
theorem test_step_decode_fault_keeps_decrement :
    seen (fun t => (t.dt, t.prevKeys, t.pc)) { prepWith 3 true 0 0xFFFF with dt := 5 } = some (4, 0, 0x200) := by decide

/-- V9: the fetch at 0xFFF. -/
theorem test_step_fetch_fault :
    faultSeen { prep 0 with pc := 0xFFF } = some (some (.fault .capacityFault none 0xFFF), true) := by decide

/-- V10: the last word of memory. -/
theorem test_step_last_word :
    seen (fun t => (t.v[0], t.pc)) (bytes 0xFFE [0x60, 0x42] { prep 0 with pc := 0xFFE }) = some (0x42, 0x1000) := by
  decide

/-- V11: an odd pc. -/
theorem test_step_odd_pc :
    seen (fun t => (t.v[0], t.pc)) (bytes 0x201 [0x60, 0x42] { prep 0 with pc := 0x201 }) = some (0x42, 0x203) := by
  decide

/-- V13: no step of a faulted machine. -/
theorem test_step_faulted : step { prep 0x6A07 with faulted := true } = .fault .stepAfterFault := rfl

/-- The first step after reset with no program: the word 0x0000 is a decode fault. -/
theorem test_step_reset :
    seen (fun t => (t.outcome, t.faulted)) State.reset = some (some (.fault .decodeFault (some 0) 0x200), true) := by
  decide

/-- V20: return with an empty stack. -/
theorem test_ret_underflow :
    faultSeen (prep 0x00EE) = some (some (.fault .stackUnderflow (some 0x00EE) 0x200), true) := by decide

/-- V21: return resumes at the popped address and leaves the entry. -/
theorem test_ret_pops :
    seen (fun t => (t.sp, t.pc, t.stack[0]))
      { prep 0x00EE with sp := 1, stack := (Vector.replicate 16 0).set 0 0x202 } = some (0, 0x202, 0x202) := by decide

/-- V22. -/
theorem test_jp : seen (·.pc) (prep 0x1234) = some 0x234 := by decide

/-- V24. -/
theorem test_call : seen (fun t => (t.stack[0], t.sp, t.pc)) (prep 0x2300) = some (0x202, 1, 0x300) := by decide

/-- V26: the seventeenth call. -/
theorem test_call_overflow :
    seen (fun t => (t.outcome, t.sp, t.pc)) { prep 0x2300 with sp := 16 } =
      some (some (.fault .stackOverflow (some 0x2300) 0x200), 16, 0x200) := by decide

/-- V27, V28. -/
theorem test_se_imm :
    seen (·.pc) (regs [(3, 0x10)] (prep 0x3310)) = some 0x204 ∧
    seen (·.pc) (regs [(3, 0x11)] (prep 0x3310)) = some 0x202 := by decide

/-- V29, V30. -/
theorem test_sne_imm :
    seen (·.pc) (regs [(3, 0x10)] (prep 0x4310)) = some 0x202 ∧
    seen (·.pc) (regs [(3, 0x11)] (prep 0x4310)) = some 0x204 := by decide

/-- V31, and unequal registers. -/
theorem test_se_reg :
    seen (·.pc) (regs [(1, 7), (2, 7)] (prep 0x5120)) = some 0x204 ∧
    seen (·.pc) (regs [(1, 7), (2, 8)] (prep 0x5120)) = some 0x202 := by decide

/-- V33, V34. -/
theorem test_sne_reg :
    seen (·.pc) (regs [(1, 7), (2, 8)] (prep 0x9120)) = some 0x204 ∧ seen (·.pc) (prep 0x9110) = some 0x202 := by decide

/-- V35, V36: the target is not cut to 12 bits. -/
theorem test_jp_v0 :
    seen (·.pc) (regs [(0, 0x04)] (prep 0xB300)) = some 0x304 ∧
    seen (·.pc) (regs [(0, 0xFF)] (prep 0xBF01)) = some 0x1000 := by decide

/-- V40, V41. -/
theorem test_ld_imm : seen (·.v[0xA]) (prep 0x6A07) = some 7 ∧ seen (·.v[15]) (prep 0x6F33) = some 0x33 := by decide

/-- V42, V43. -/
theorem test_add_imm :
    seen (fun t => (t.v[1], t.v[15])) (regs [(1, 0xFF), (15, 0x55)] (prep 0x7102)) = some (1, 0x55) ∧
    seen (·.v[15]) (regs [(15, 1)] (prep 0x7FFF)) = some 0 := by decide

/-- V44. -/
theorem test_ld_reg : seen (·.v[1]) (regs [(2, 0x5A)] (prep 0x8120)) = some 0x5A := by decide

/-- The parameters with `P_LOGIC_VF = Cleared`. -/
def clearedVf : Params := { defaultParams with logicVf := .cleared }

/-- V45, V46. -/
theorem test_or :
    seen (fun t => (t.v[1], t.v[15])) (regs [(1, 0x0F), (2, 0xF0), (15, 9)] (prep 0x8121)) = some (0xFF, 9) ∧
    seen (fun t => (t.v[1], t.v[15])) { regs [(1, 0x0F), (2, 0xF0), (15, 9)] (prep 0x8121) with params := clearedVf } =
      some (0xFF, 0) := by decide

/-- V47, V48: `VF` as the destination. -/
theorem test_or_vf :
    seen (·.v[15]) (regs [(15, 0x0F), (1, 0xF0)] (prep 0x8F11)) = some 0xFF ∧
    seen (·.v[15]) { regs [(15, 0x0F), (2, 0xF0)] (prep 0x8F21) with params := clearedVf } = some 0 := by decide

/-- V49. -/
theorem test_and : seen (·.v[1]) (regs [(1, 0x3C), (2, 0x0F)] (prep 0x8122)) = some 0x0C := by decide

/-- V50, V51. -/
theorem test_xor :
    seen (·.v[1]) (regs [(1, 0x3C), (2, 0x0F)] (prep 0x8123)) = some 0x33 ∧
    seen (·.v[1]) (regs [(1, 0x5A)] (prep 0x8113)) = some 0 := by decide

/-- V52, V54. -/
theorem test_add :
    seen (fun t => (t.v[0], t.v[15])) (regs [(0, 0xFF), (1, 1)] (prep 0x8014)) = some (0, 1) ∧
    seen (fun t => (t.v[0], t.v[15])) (regs [(0, 0x80)] (prep 0x8004)) = some (0, 1) := by decide

/-- V55, V57: `VF` as the destination and as the addend. -/
theorem test_add_vf :
    seen (·.v[15]) (regs [(15, 0x10), (14, 0xF5)] (prep 0x8FE4)) = some 1 ∧
    seen (fun t => (t.v[14], t.v[15])) (regs [(15, 1), (14, 0xFF)] (prep 0x8EF4)) = some (0, 1) := by decide

/-- V58, V59. -/
theorem test_sub :
    seen (fun t => (t.v[0], t.v[15])) (regs [(0, 3), (1, 5)] (prep 0x8015)) = some (0xFE, 0) ∧
    seen (fun t => (t.v[0], t.v[15])) (regs [(0, 0x42), (1, 0x42)] (prep 0x8015)) = some (0, 1) := by decide

/-- V61, V62. -/
theorem test_sub_vf :
    seen (·.v[15]) (regs [(15, 5), (14, 3)] (prep 0x8FE5)) = some 1 ∧
    seen (·.v[15]) (regs [(15, 3), (14, 5)] (prep 0x8FE5)) = some 0 := by decide

/-- The parameters with `P_SHIFT_SRC = Y`. -/
def shiftY : Params := { defaultParams with shiftSrc := .y }

/-- V63, V64. -/
theorem test_shr :
    seen (fun t => (t.v[2], t.v[15])) (regs [(2, 5)] (prep 0x8206)) = some (2, 1) ∧
    seen (fun t => (t.v[1], t.v[15])) (regs [(1, 4), (2, 3)] (prep 0x8126)) = some (2, 0) := by decide

/-- V65, V66. -/
theorem test_shr_source :
    seen (fun t => (t.v[1], t.v[15])) { regs [(1, 4), (2, 3)] (prep 0x8126) with params := shiftY } = some (1, 1) ∧
    seen (·.v[15]) (regs [(15, 2)] (prep 0x8F06)) = some 0 := by decide

/-- V67, V68. -/
theorem test_subn :
    seen (fun t => (t.v[0], t.v[15])) (regs [(0, 3), (1, 5)] (prep 0x8017)) = some (2, 1) ∧
    seen (fun t => (t.v[0], t.v[15])) (regs [(0, 5), (1, 3)] (prep 0x8017)) = some (0xFE, 0) := by decide

/-- V70, V71. -/
theorem test_shl :
    seen (fun t => (t.v[2], t.v[15])) (regs [(2, 0x81)] (prep 0x820E)) = some (2, 1) ∧
    seen (fun t => (t.v[1], t.v[15])) (regs [(1, 4), (2, 0x81)] (prep 0x812E)) = some (8, 0) := by decide

/-- V72, V73. -/
theorem test_shl_source :
    seen (fun t => (t.v[1], t.v[15])) { regs [(1, 4), (2, 0x81)] (prep 0x812E) with params := shiftY } = some (2, 1) ∧
    seen (·.v[15]) (regs [(15, 0x40)] (prep 0x8F0E)) = some 0 := by decide

/-- V74, V76. -/
theorem test_rnd :
    seen (·.v[3]) (prepWith 0 false 0xA7 0xC30F) = some 7 ∧
    seen (·.v[5]) (regs [(5, 0x99)] (prepWith 0 false 0x3C 0xC500)) = some 0 := by decide

/-- V81. -/
theorem test_ld_i : seen (·.i) (prep 0xAFFF) = some 0xFFF := by decide

/-- V83, V84. -/
theorem test_add_i :
    seen (fun t => (t.i, t.v[15])) (regs [(1, 1)] { prep 0xF11E with i := 0xFFFF }) = some (0, 0) ∧
    seen (·.i) (regs [(1, 1)] { prep 0xF11E with i := 0xFFF }) = some 0x1000 := by decide

/-- V85, V86. -/
theorem test_ld_f :
    seen (·.i) (regs [(0, 0x0A)] (prep 0xF029)) = some 0x32 ∧
    seen (·.i) (regs [(1, 0x1F)] (prep 0xF129)) = some 0x4B := by decide

/-- Three memory bytes after a step. -/
def three (a : Nat) (t : State) : List Byte := [t.mem.read a, t.mem.read (a + 1), t.mem.read (a + 2)]

/-- V87, V91. -/
theorem test_bcd :
    seen (three 0x300) (regs [(0, 0xFE)] { prep 0xF033 with i := 0x300 }) = some [2, 5, 4] ∧
    seen (three 0xFFD) (regs [(1, 0x7B)] { prep 0xF133 with i := 0xFFD }) = some [1, 2, 3] := by decide

/-- V92: no byte written. -/
theorem test_bcd_fault :
    seen (fun t => (t.outcome, t.mem.read 0xFFE)) (regs [(1, 0x7B)] { prep 0xF133 with i := 0xFFE }) =
      some (some (.fault .capacityFault (some 0xF133) 0x200), 0) := by decide

/-- The parameters with `P_LDST_I = Advance`. -/
def advancing : Params := { defaultParams with ldstI := .advance }

/-- V93, V94. -/
theorem test_store :
    seen (fun t => (three 0x400 t, t.i)) (regs [(0, 1), (1, 2), (2, 3)] { prep 0xF255 with i := 0x400 }) =
      some ([1, 2, 3], 0x400) ∧
    seen (fun t => (three 0x400 t, t.i))
      (regs [(0, 1), (1, 2), (2, 3)] { prep 0xF255 with i := 0x400, params := advancing }) =
      some ([1, 2, 3], 0x403) := by decide

/-- V96, V97, and the last place where 16 registers fit (V95). -/
theorem test_store_bounds :
    faultSeen { prep 0xFF55 with i := 0xFF1 } = some (some (.fault .capacityFault (some 0xFF55) 0x200), true) ∧
    faultSeen { prep 0xF255 with i := 0x1000 } = some (some (.fault .capacityFault (some 0xF255) 0x200), true) ∧
    seen (fun t => (t.mem.read 0xFFF, t.faulted)) (regs [(15, 0x10)] { prep 0xFF55 with i := 0xFF0 }) =
      some (0x10, false) := by decide

/-- V98, V100. -/
theorem test_load :
    seen (·.v[0]) (prep 0xF065) = some 0xF0 ∧
    seen (fun t => (t.v[0], t.v[1], t.v[2], t.i)) { prep 0xF265 with params := advancing } =
      some (0xF0, 0x90, 0x90, 3) := by decide

/-- V99: all registers, `VF` too. -/
theorem test_load_all :
    seen (·.v.toList) (prep 0xFF65) =
      some [0xF0, 0x90, 0x90, 0x90, 0xF0, 0x20, 0x60, 0x20, 0x20, 0x70, 0xF0, 0x10, 0xF0, 0x80, 0xF0, 0xF0] := by decide

/-- V110: the value read is the one after this step's decrement. -/
theorem test_ld_vx_dt :
    seen (fun t => (t.dt, t.v[3])) { prepWith 0 true 0 0xF307 with dt := 0x10 } = some (0x0F, 0x0F) := by decide

/-- V112: the decrement comes before the write. -/
theorem test_ld_dt_vx : seen (·.dt) (regs [(3, 7)] { prepWith 0 true 0 0xF315 with dt := 3 }) = some 7 := by decide

/-- V113. -/
theorem test_ld_st_vx : seen (·.st) (regs [(3, 5)] (prep 0xF318)) = some 5 := by decide

/-- V114, V115, V116. -/
theorem test_timers :
    seen (fun t => (t.dt, t.st)) { prepWith 0 true 0 0x1200 with dt := 1 } = some (0, 0) ∧
    seen (fun t => (t.dt, t.st)) { prepWith 0 true 0 0x1200 with st := 2 } = some (0, 1) ∧
    seen (fun t => (t.dt, t.st)) { prep 0x1200 with dt := 5, st := 5 } = some (5, 5) := by decide

/-- V117, V118. -/
theorem test_skp :
    seen (fun t => (t.pc, t.prevKeys)) (regs [(1, 5)] (prepWith 0x20 false 0 0xE19E)) = some (0x204, 0x20) ∧
    seen (·.pc) (prepWith 0x8000 false 0 0xE09E) = some 0x202 := by decide

/-- V119. -/
theorem test_skp_fault :
    faultSeen (regs [(1, 0x10)] (prepWith 0x20 false 0 0xE19E)) =
      some (some (.fault .invalidButtonIndex (some 0xE19E) 0x200), true) := by decide

/-- V120, V121, and a button that is up. -/
theorem test_sknp :
    seen (·.pc) (regs [(1, 5)] (prepWith 0x20 false 0 0xE1A1)) = some 0x202 ∧
    seen (·.pc) (regs [(15, 15)] (prepWith 0x8000 false 0 0xEFA1)) = some 0x202 ∧
    seen (·.pc) (regs [(1, 6)] (prepWith 0x20 false 0 0xE1A1)) = some 0x204 := by decide

/-- V122. -/
theorem test_sknp_fault :
    faultSeen (regs [(15, 0x10)] (prep 0xEFA1)) =
      some (some (.fault .invalidButtonIndex (some 0xEFA1) 0x200), true) := by decide

/-- V123, V125: the wait, with no button and with a held one. -/
theorem test_ld_k_waits :
    seen (fun t => (t.outcome, t.pc)) (prep 0xF50A) = some (some .haltedAwaitingInput, 0x200) ∧
    seen (fun t => (t.outcome, t.pc)) { prepWith 1 false 0 0xF30A with prevKeys := 1 } =
      some (some .haltedAwaitingInput, 0x200) := by decide

/-- V126, V127: the least new press. -/
theorem test_ld_k_takes :
    seen (fun t => (t.v[3], t.pc, t.prevKeys)) { prepWith 0x8003 false 0 0xF30A with prevKeys := 1 } =
      some (1, 0x202, 0x8003) ∧
    seen (·.v[15]) (regs [(15, 0x77)] (prepWith 0x400 false 0 0xFF0A)) = some 0x0A := by decide

/-- A framebuffer with some bytes set. -/
def screen (l : List (Fin 256 × Byte)) : FrameBuffer := l.foldl (fun f p => f.set p.1.val p.2) (Vector.replicate 256 0)

/-- V130. -/
theorem test_cls :
    seen (fun t => (t.fb[0], t.fb[255], t.v[15])) (regs [(15, 5)] { prep 0x00E0 with fb := screen [(0, 0xFF), (255, 1)] }) =
      some (0, 0, 5) := by decide

/-- V131, V132: glyph 0 at the origin and across both edges; V138, V139: the last place where 15 rows fit and one
address further. -/
theorem test_drw :
    seen (fun t => (t.fb[0], t.fb[8], t.fb[32], t.v[15])) (prep 0xD015) = some (0xF0, 0x90, 0xF0, 0) ∧
    seen (fun t => (t.fb[239], t.fb[247], t.fb[255], t.fb[7], t.fb[15]))
      (regs [(0, 60), (1, 29)] (prep 0xD015)) = some (0x0F, 9, 9, 9, 0x0F) ∧
    faultSeen { prep 0xD01F with i := 0xFF2 } = some (some (.fault .capacityFault (some 0xD01F) 0x200), true) ∧
    seen (fun t => (t.v[15], t.faulted)) { prep 0xD01F with i := 0xFF1 } = some (0, false) := by decide

/-- V134 to V137: a collision, an overlap that is none, no rows, and the old `VF` as the column. -/
theorem test_drw_flag :
    seen (fun t => (t.fb[0], t.v[15])) { prep 0xD011 with fb := screen [(0, 0x80)] } = some (0x70, 1) ∧
    seen (fun t => (t.fb[0], t.v[15])) { prep 0xD011 with fb := screen [(0, 0x0F)] } = some (0xFF, 0) ∧
    seen (·.v[15]) (regs [(15, 1)] (prep 0xD010)) = some 0 ∧
    seen (fun t => (t.fb[1], t.v[15])) (regs [(15, 8)] (prep 0xDF01)) = some (0xF0, 0) := by decide

/-- A store into the program is fetched by the next step (R62): `FX55` with `I` at the next word. -/
theorem test_self_modifying :
    seen (fun t => t.mem.fetch t.pc) (regs [(0, 0x12), (1, 0x34)] { prep 0xF155 with i := 0x202 }) =
      some (some 0x1234) := by decide

/-- What `p` sees of a loaded machine. -/
def loadSeen {α : Type} (p : State → α) : LoadOutcome → Option α
  | .loaded s => some (p s)
  | .capacityFault _ => none

/-- The load port places the image and the font (S9), and the loaded jump to itself spins (V23). -/
theorem test_load_port :
    loadSeen (fun s => (s.mem.read 0x200, s.mem.read 0, s.mem.read 0x4F, s.mem.read 0x50, s.spinning))
      (load (Vector.replicate 80 0xAA) defaultParams [0x12, 0x00]) = some (0x12, 0xAA, 0xAA, 0, true) := by decide

/-! ## Witnesses

For every obligation with hypotheses, a state and operands that meet them, at the boundary of each clause. -/

theorem witness_EncodeOfDecodeIsTheWord : decode 0x8FE4 = .ok (.addReg 15 14) := by decide

/-- One word of each of the six sets, and one of none. -/
theorem witness_IllegalWordsAreExactlyTheTable :
    [0x0FFF, 0x5FFF, 0x8FFF, 0x9001, 0xEFFF, 0xF000].all refusedWord = true ∧
    decode 0x00E0 ≠ .error (.undefinedWord 0x00E0) := by decide

theorem witness_DecodingSelectsTheOneTableRow :
    wordDefined 0x1234 = true ∧ decode 0x1234 = .ok (.jp 0x234) ∧ opcodeRow (.jp 0) ∈ opcodeRows ∧
    (opcodeRow (.jp 0)).covers 0x1234 = true := by decide

/-- A state whose pc is the last one a fetch reads, 0xFFE, at the word `6042`. -/
def lastWord : State := bytes 0xFFE [0x60, 0x42] { prep 0 with pc := 0xFFE }

/-- A state whose pc is the first one past it. -/
def pastLastWord : State := { prep 0 with pc := 0xFFF }

theorem witness_StepRunsTheDecodedInstruction :
    lastWord.faulted = false ∧ lastWord.pc.toNat = 0xFFE ∧ decode (wordAt lastWord) = .ok (.ldImm 0 0x42) := by decide

theorem witness_FetchPastMemoryIsACapacityFault :
    pastLastWord.faulted = false ∧ pastLastWord.pc.toNat = 0xFFE + 1 := by decide

theorem witness_UndefinedWordIsADecodeFault :
    (prep 0x0123).faulted = false ∧ (prep 0x0123).pc.toNat ≤ 0xFFE ∧ ∀ i, decode (wordAt (prep 0x0123)) ≠ .ok i := by
  have h : decode (wordAt (prep 0x0123)) = .error (.undefinedWord 0x0123) := by decide
  refine ⟨by decide, by decide, fun i hi => ?_⟩
  rw [h] at hi
  cases hi

theorem witness_StepExistsExactlyWhileNotFaulted :
    State.reset.faulted = false ∧ { State.reset with faulted := true }.faulted = true := by decide

/-- A fault of the fetch and one of an instruction. -/
theorem witness_FaultingStepWritesOnlyTimersAndLatch :
    (∃ t, step pastLastWord = .next t ∧ t.faulted = true) ∧ ∃ t, step (prep 0x00EE) = .next t ∧ t.faulted = true :=
  ⟨step_of_seen (p := (·.faulted)) (by decide), step_of_seen (p := (·.faulted)) (by decide)⟩

/-- No fault due, and each kind due, the data accesses at their first address past the bound. -/
theorem witness_StepFaultsExactlyOnItsCauses :
    [lastWord, prep 0x1200, { prep 0xF133 with i := 0xFFD }].map faultDue = [none, none, none] ∧
    [pastLastWord, { prep 0xF133 with i := 0xFFE }, { prep 0xD01F with i := 0xFF2 }].map faultDue =
      [some .capacityFault, some .capacityFault, some .capacityFault] ∧
    [prep 0x0123, prep 0x00EE, { prep 0x2300 with sp := 16 }, regs [(1, 16)] (prep 0xE19E)].map faultDue =
      [some .decodeFault, some .stackUnderflow, some .stackOverflow, some .invalidButtonIndex] ∧
    [lastWord, pastLastWord, prep 0x0123, { prep 0x2300 with sp := 16 }].map (fun s => (after s).isSome) =
      [true, true, true, true] := by decide

/-- The wait that finds no press and the one that finds one. -/
theorem witness_NonFaultingStepRecordsTheBitmask :
    instrAt (prep 0xF50A) = some (.ldVxK 5) ∧
    (∃ t, step (prep 0xF50A) = .next t ∧ decide (t.outcome = some .haltedAwaitingInput) = true) ∧
    ∃ t, step (prepWith 8 false 0 0xF50A) = .next t ∧ decide (t.outcome = some .completed) = true :=
  ⟨by decide, step_of_seen (by decide), step_of_seen (by decide)⟩

theorem witness_StepMovesThePcByItsClass :
    (∃ t, step (prep 0x0123) = .next t ∧ t.faulted = true) ∧ ∃ t, step (prep 0x00E0) = .next t ∧ (!t.faulted) = true :=
  ⟨step_of_seen (p := (·.faulted)) (by decide), step_of_seen (p := (!·.faulted)) (by decide)⟩

/-- A step that is none of the instructions named in the frames of the timers, the framebuffer, the stack and
memory. -/
theorem witness_frames :
    (∃ t, step (prep 0x1200) = .next t ∧ (!t.faulted) = true) ∧ instrAt (prep 0x1200) = some (.jp 0x200) :=
  ⟨step_of_seen (p := (!·.faulted)) (by decide), by decide⟩

theorem witness_TimersCountDownOncePerTick :
    (∀ x, instrAt (prep 0x1200) ≠ some (.ldDtVx x)) ∧ (∀ x, instrAt (prep 0x1200) ≠ some (.ldStVx x)) ∧
    instrAt (prep 0xF315) = some (.ldDtVx 3) ∧ instrAt (prep 0xF318) = some (.ldStVx 3) ∧
    [prep 0x1200, prep 0xF315, prep 0xF318].map (fun s => (after s).isSome) = [true, true, true] := by decide

theorem witness_FramebufferChangesOnlyByClearAndDraw :
    instrAt (prep 0x1200) ≠ some .cls ∧ ∀ x y n, instrAt (prep 0x1200) ≠ some (.drw x y n) := by
  rw [witness_frames.2]
  exact ⟨nofun, nofun⟩

theorem witness_StackChangesOnlyByCallAndReturn :
    instrAt (prep 0x1200) ≠ some .ret ∧ ∀ nnn, instrAt (prep 0x1200) ≠ some (.call nnn) := by
  rw [witness_frames.2]
  exact ⟨nofun, nofun⟩

theorem witness_MemoryChangesOnlyByBcdAndStore :
    (∀ x, instrAt (prep 0x1200) ≠ some (.ldBVx x)) ∧ ∀ x, instrAt (prep 0x1200) ≠ some (.ldMemVx x) := by
  rw [witness_frames.2]
  exact ⟨nofun, nofun⟩

/-- An addition, an OR with each value of `P_LOGIC_VF`, and an instruction that leaves `VF`. -/
theorem witness_FlagIsWrittenExactlyByItsInstructions :
    State.reset.faulted = false ∧ writesFlag defaultParams (.addReg 0 1) = true ∧
    (∃ t, exec (.addReg 0 1) State.reset = .next t ∧ t.faulted = false) ∧
    writesFlag clearedVf (.orReg 0 1) = true ∧ writesFlag defaultParams (.orReg 0 1) = false ∧
    destination (.orReg 0 1) ≠ some 15 ∧ Instr.orReg 0 1 ≠ .ldVxMem 15 :=
  ⟨rfl, by decide, ⟨_, rfl, rfl⟩, by decide, by decide, by decide, by decide⟩

/-- A destination, the flag, and a register of a block load, each changed. -/
theorem witness_RegistersChangeOnlyByTheirWriters :
    (∃ t, exec (.ldImm 3 7) State.reset = .next t ∧ t.v[(3 : Fin 16)] ≠ State.reset.v[(3 : Fin 16)]) ∧
    (∃ t, exec (.sub 0 0) State.reset = .next t ∧ t.v[(15 : Fin 16)] ≠ State.reset.v[(15 : Fin 16)]) ∧
    ∃ t, exec (.ldVxMem 15) State.reset = .next t ∧ t.v[(15 : Fin 16)] ≠ State.reset.v[(15 : Fin 16)] :=
  ⟨⟨_, rfl, by decide⟩, ⟨_, rfl, by decide⟩, ⟨_, rfl, by decide⟩⟩

/-- The block store that advances `I`, the one that leaves it, and the one that faults. -/
theorem witness_IndexChangesOnlyByItsWriters :
    State.reset.faulted = false ∧
    (∃ t, exec (.ldMemVx 2) { State.reset with params := advancing } = .next t ∧ t.faulted = false ∧ t.i = 3) ∧
    (∃ t, exec (.ldMemVx 2) State.reset = .next t ∧ t.faulted = false ∧ t.i = 0) ∧
    (∃ t, exec (.ldMemVx 2) { State.reset with i := 0xFFE, params := advancing } = .next t ∧ t.faulted = true) ∧
    ∃ t, exec (.addIVx 0) { State.reset with i := 0xFFFF } = .next t ∧ t.i = 0xFFFF :=
  ⟨rfl, ⟨_, rfl, by decide, by decide⟩, ⟨_, rfl, by decide, by decide⟩, ⟨_, rfl, by decide⟩, ⟨_, rfl, by decide⟩⟩

theorem witness_StepTakesOneInputAndKeepsParameters : ∃ t, step (prep 0x1200) = .next t ∧ t.inputs.isEmpty = true :=
  step_of_seen (by decide)

/-- An image of no byte is loaded, and one of 3585 is not. -/
theorem witness_LoadSatisfiesTheInvariant (font : Vector Byte 80) :
    ∃ s, load font defaultParams [] = .loaded s := ⟨_, rfl⟩

theorem witness_FirstFetchIsAtTheEntryPoint (font : Vector Byte 80) :
    ∃ s, load font clearedVf [0x12, 0x00] = .loaded s := ⟨_, rfl⟩

/-- The greatest image and one byte more. -/
theorem witness_LoadPlacesFontAndImage :
    (List.replicate 3584 (0 : Byte)).length ≤ 3584 ∧ 3584 < (List.replicate 3585 (0 : Byte)).length := by
  rw [List.length_replicate, List.length_replicate]
  decide

/-- The state after reset satisfies the invariant and has a step. -/
theorem witness_StepKeepsTheInvariant : State.reset.Inv ∧ ∃ t, step State.reset = .next t ∧ t.faulted = true := by
  refine ⟨⟨rfl, rfl, by decide, fun k => ?_⟩, step_of_seen (p := (·.faulted)) (by decide)⟩
  simp [State.reset]

theorem witness_ResetIsTheLoadOfAnEmptyImage : ∃ font : Vector Byte 80, font.toList = defaultFont :=
  ⟨⟨defaultFont.toArray, rfl⟩, rfl⟩

theorem witness_SpinningStateChangesOnlyTimersAndKeys :
    (prep 0x1200).spinning = true ∧ (prep 0x1200).faulted = false := by decide

/-- An empty stack, one entry, and all sixteen. -/
theorem witness_ReturnPopsOrUnderflows :
    State.reset.sp.val = 0 ∧ { State.reset with sp := 1 }.sp.val = (0 : Fin 16).val + 1 ∧
    { State.reset with sp := 16 }.sp.val = (15 : Fin 16).val + 1 := by decide

/-- A full stack, the first entry and the last. -/
theorem witness_CallPushesOrOverflows :
    { State.reset with sp := 16 }.sp.val = 16 ∧ State.reset.sp.val = (0 : Fin 16).val ∧
    { State.reset with sp := 15 }.sp.val = (15 : Fin 16).val := by decide

theorem witness_ReturnResumesAfterTheCall :
    { State.reset with sp := 15 }.sp.val < 16 ∧
    ∃ t, exec (.call 0x300) { State.reset with sp := 15 } = .next t ∧
      { t with pc := 0x340 }.stack = t.stack ∧ { t with pc := 0x340 }.sp = t.sp := ⟨by decide, _, rfl, rfl, rfl⟩

theorem witness_RegisterSkipsCompareTwoRegisters : ∀ n ∈ [1, 15], 0 < n ∧ n < 16 := by decide

/-- Each of the three operations under each value of `P_LOGIC_VF`. -/
theorem witness_LogicOperations :
    (∀ i ∈ [Instr.orReg 0 1, .andReg 0 1, .xorReg 0 1], i = .orReg 0 1 ∨ i = .andReg 0 1 ∨ i = .xorReg 0 1) ∧
    State.reset.params.logicVf = .unchanged ∧ { State.reset with params := clearedVf }.params.logicVf = .cleared := by
  decide

/-- The destinations either side of `x = 15`, for the sum, the difference and the shifts. -/
theorem witness_destinationNotFlag : (14 : RegIx) ≠ 15 ∧ ¬ (15 : RegIx) ≠ 15 := by decide

/-- The source under each value of `P_SHIFT_SRC`. -/
theorem witness_ShiftsWriteResultAndBitOut :
    ∃ s s' : State, (4 : Byte) = (if s.params.shiftSrc = .x then s.v[(1 : RegIx)] else s.v[(2 : RegIx)]) ∧
      (3 : Byte) = (if s'.params.shiftSrc = .x then s'.v[(1 : RegIx)] else s'.v[(2 : RegIx)]) :=
  ⟨regs [(1, 4), (2, 3)] State.reset, { regs [(1, 4), (2, 3)] State.reset with params := shiftY }, by decide, by decide⟩

theorem witness_BcdStoresThreeDigits :
    accessFits { State.reset with i := 0xFFD } 3 ∧ ¬ accessFits { State.reset with i := 0xFFE } 3 ∧
    State.reset.mem.wf = true := by
  unfold accessFits
  decide

/-- Sixteen registers at the last place where they fit, and one address further. -/
theorem witness_StoreRegistersFillsMemory :
    accessFits { State.reset with i := 0xFF0 } ((15 : RegIx).val + 1) ∧
    ¬ accessFits { State.reset with i := 0xFF1 } ((15 : RegIx).val + 1) ∧ State.reset.mem.wf = true := by
  unfold accessFits
  decide

theorem witness_LoadRegistersReadsMemory :
    accessFits { State.reset with i := 0xFFF } ((0 : RegIx).val + 1) ∧
    ¬ accessFits { State.reset with i := 0x1000 } ((0 : RegIx).val + 1) := by
  unfold accessFits
  decide

theorem witness_LoadAfterStoreRestoresRegisters :
    State.reset.mem.wf = true ∧ accessFits State.reset ((15 : RegIx).val + 1) ∧
    ∃ t, exec (.ldMemVx 15) State.reset = .next t ∧ { t with v := Vector.replicate 16 9 }.mem = t.mem ∧
      { t with i := State.reset.i }.i = State.reset.i := by
  unfold accessFits
  exact ⟨by decide, by decide, _, rfl, rfl, rfl⟩

/-- The first and the last byte of each store and the addresses either side, at the last place where it fits and one
address further; `FX55` with `x = 0` and an instruction that stores nothing. -/
theorem witness_FetchSeesStoredBytes :
    State.reset.mem.wf = true ∧
    [0xFFC, 0xFFD, 0xFFF].map (byteStored (.ldBVx 1) (regs [(1, 0x7B)] { State.reset with i := 0xFFD })) =
      [none, some 1, some 3] ∧
    byteStored (.ldBVx 1) { State.reset with i := 0xFFE } 0xFFE = none ∧
    [0xFEF, 0xFF0, 0xFFF].map (byteStored (.ldMemVx 15) (regs [(0, 4), (15, 5)] { State.reset with i := 0xFF0 })) =
      [none, some 4, some 5] ∧
    byteStored (.ldMemVx 15) { State.reset with i := 0xFF1 } 0xFF1 = none ∧
    [0x2FF, 0x300, 0x301].map (byteStored (.ldMemVx 0) (regs [(0, 4)] { State.reset with i := 0x300 })) =
      [none, some 4, none] ∧
    byteStored .cls State.reset 0 = none := by decide

/-- `FX55` with `x = 0` stores the high byte of the next word at 0x202, then the jump 0x1200 it made runs; the byte is
the high half of the word at 0x202 and the low half of the word at 0x201. -/
def storing : State := regs [(0, 0x12)] { prep 0xF055 with i := 0x202 }

theorem witness_StoredByteIsSeenByEveryLaterFetch :
    storing.mem.wf = true ∧ storedByStep storing 0x202 = some 0x12 ∧
    (0x202 : Word).toNat = 0x202 ∧ (0x201 : Word).toNat + 1 = 0x202 ∧
    ∃ t, step storing = .next t ∧ ∃ u, reachedKeeping 0x202 t 1 u :=
  ⟨by decide, by decide, by decide, by decide, _, rfl, _, _, rfl, by decide, rfl⟩

/-- The greatest button and one more. -/
theorem witness_KeySkipsTestTheButton :
    (regs [(1, 15)] State.reset).v[(1 : RegIx)].toNat ≤ 15 ∧ 15 < (regs [(1, 16)] State.reset).v[(1 : RegIx)].toNat := by
  decide

/-- No button, button 0 and button 15. -/
theorem witness_WaitForKeyTakesTheLeastNewPress :
    (∀ k < 16, ((currentInput (prep 0)).keys.getLsbD k && !(prep 0).prevKeys.getLsbD k) = false) ∧
    ((currentInput (prepWith 0x8001 false 0 0)).keys.getLsbD 0 &&
      !(prepWith 0x8001 false 0 0).prevKeys.getLsbD 0) = true ∧
    ((currentInput (prepWith 0x8000 false 0 0)).keys.getLsbD 15 &&
      !(prepWith 0x8000 false 0 0).prevKeys.getLsbD 15) = true ∧
    ∀ j < 15, ((currentInput (prepWith 0x8000 false 0 0)).keys.getLsbD j &&
      !(prepWith 0x8000 false 0 0).prevKeys.getLsbD j) = false := by decide

theorem witness_WaitingStepKeepsAllOtherState :
    (∃ t, step (prep 0xF50A) = .next t ∧ decide (t.outcome = some .haltedAwaitingInput) = true) ∧
    (prep 0xF50A).faulted = false ∧ instrAt (prep 0xF50A) = some (.ldVxK 5) ∧
    (currentInput (prep 0xF50A)).keys &&& ~~~ (prep 0xF50A).prevKeys = 0 ∧
    instrAt (prepWith 8 false 0 0xF50A) = some (.ldVxK 5) ∧
    (currentInput (prepWith 8 false 0 0xF50A)).keys &&& ~~~ (prepWith 8 false 0 0xF50A).prevKeys ≠ 0 :=
  ⟨step_of_seen (by decide), by decide, by decide, by decide, by decide, by decide⟩

theorem witness_SoundTimerIsReadByNoInstruction :
    (∃ t, exec .cls State.reset = .next t) ∧ (∀ x, Instr.cls ≠ .ldStVx x) ∧ ∃ x, Instr.ldStVx 3 = .ldStVx x :=
  ⟨⟨_, rfl⟩, nofun, 3, rfl⟩

theorem witness_PreviousKeysAreReadOnlyByTheWait :
    (∀ x, Instr.cls ≠ .ldVxK x) ∧ ∃ t, exec .cls State.reset = .next t := ⟨nofun, _, rfl⟩

/-- The last pixel, and two equal framebuffers. -/
theorem witness_PixelsAreTheBitsOfTheFramebuffer :
    63 < 64 ∧ 31 < 32 ∧ ∀ fb : FrameBuffer, pixel fb 63 31 = pixel fb 63 31 := ⟨by decide, by decide, fun _ => rfl⟩

/-- Sprites of 0 rows and of 15 rows that fit, and one of 15 rows past the end. -/
theorem witness_DrawXorsTheSpriteAndReportsCollision :
    (0 : Nibble).toNat = 0 ∧ accessFits { State.reset with i := 0xFF1 } (15 : Nibble).toNat ∧
    (15 : Nibble).toNat ≠ 0 ∧ ¬ accessFits { State.reset with i := 0xFF2 } (15 : Nibble).toNat := by
  unfold accessFits
  decide

/-- Glyph 0 at the origin covers pixel (0, 0) and not pixel (4, 0). -/
theorem witness_covered :
    covered 0 1 1 State.reset 0 0 ∧ ¬ covered 0 1 1 State.reset 4 0 ∧ pixel State.reset.fb 0 0 = false ∧
    pixel (screen [(0, 0x80)]) 0 0 = true := by
  unfold covered
  decide

/-- The second draw in the state after the first, with the coordinate registers as they were; the first draw on a
clear screen (some covered pixel clear) and a sprite of no rows (none). -/
theorem witness_DoubleDrawRestoresTheFramebuffer :
    accessFits State.reset (1 : Nibble).toNat ∧
    (∃ t, exec (.drw 15 15 1) State.reset = .next t ∧ { t with v := State.reset.v }.fb = t.fb ∧
      { t with v := State.reset.v }.mem = State.reset.mem ∧ { t with v := State.reset.v }.i = State.reset.i) ∧
    covered 15 15 1 State.reset 0 0 ∧ pixel State.reset.fb 0 0 = false ∧ ¬ covered 0 1 0 State.reset 0 0 := by
  refine ⟨by unfold accessFits; decide, ⟨_, rfl, rfl, rfl, rfl⟩, ?_⟩
  unfold covered
  decide

end Sys2Proof.Tests
end

section
/-! SUPPORT and PROOFS, family 10_state.md. The load port as an equation per case, what memory reads as after a load,
and a pixel as a bit of the framebuffer. -/

namespace Sys2Proof.Machine

/-! ## The load port -/

/-- An image within the bound is loaded: the state of R40 but for memory and parameters (R43). -/
theorem load_of_length_le {font : Vector Byte 80} {p : Params} {image : List Byte} (h : image.length ≤ maxImage) :
    load font p image = .loaded { State.reset with mem := loadedMemory font image, params := p } :=
  if_pos (decide_eq_true h)

/-- A longer image is refused with its length (R43). -/
theorem load_of_lt_length {font : Vector Byte 80} {p : Params} {image : List Byte} (h : maxImage < image.length) :
    load font p image = .capacityFault image.length :=
  if_neg (by simpa [imageFits] using h)

/-- Inversion of `load`: a machine is created only from an image within the bound, and this is the machine. -/
theorem load_eq_loaded {font : Vector Byte 80} {p : Params} {image : List Byte} {s : State}
    (h : load font p image = .loaded s) :
    image.length ≤ maxImage ∧ s = { State.reset with mem := loadedMemory font image, params := p } := by
  rcases Nat.lt_or_ge maxImage image.length with hlong | hfits
  · rw [load_of_lt_length hlong] at h
    cases h
  · rw [load_of_length_le hfits] at h
    cases h
    exact ⟨hfits, rfl⟩

/-! ## Memory after a load -/

/-- Past the font an unlisted address reads as 0 (R40). -/
theorem resetByte_of_ge {a : Nat} (h : 80 ≤ a) : resetByte a = 0 :=
  List.getD_eq_default _ _ (show defaultFont.length ≤ a from h)

/-- The memory with only the font in it is in canonical form. -/
theorem fontMemory_wf (font : Vector Byte 80) : (Memory.writeBytes [] 0 font.toList).wf = true :=
  writeBytes_wf (by simp [memSize]) reset_mem_wf

/-- The memory with only the font in it reads as the font in the low bytes. -/
theorem read_fontMemory (font : Vector Byte 80) (k : Fin 80) :
    (Memory.writeBytes [] 0 font.toList).read k.val = font[k] := by
  have h := read_writeBytes (bs := font.toList) (a := 0) (by simp [memSize]) reset_mem_wf (k := k.val) (by simp)
  simpa [State.reset] using h

/-- The memory with only the font in it reads as 0 past the font. -/
theorem read_fontMemory_of_ge (font : Vector Byte 80) {a : Nat} (h : 80 ≤ a) :
    (Memory.writeBytes [] 0 font.toList).read a = 0 := by
  rw [read_writeBytes_outside (Or.inr (by simpa using h))]
  exact resetByte_of_ge h

/-- An image within the bound ends inside the address space (R5). -/
theorem image_le_memSize {image : List Byte} (h : image.length ≤ maxImage) : imageBase + image.length ≤ memSize := by
  unfold maxImage at h
  unfold imageBase memSize
  omega

/-- An accepted load leaves memory in canonical form. -/
theorem loadedMemory_wf {font : Vector Byte 80} {image : List Byte} (h : image.length ≤ maxImage) :
    (loadedMemory font image).wf = true :=
  writeBytes_wf (image_le_memSize h) (fontMemory_wf font)

/-- The image stands in memory from 0x200 on (R40, R43). -/
theorem read_loadedMemory_image {font : Vector Byte 80} {image : List Byte} (h : image.length ≤ maxImage) {k : Nat}
    (hk : k < image.length) : (loadedMemory font image).read (imageBase + k) = image[k] :=
  read_writeBytes (image_le_memSize h) (fontMemory_wf font) hk

/-- Outside the image memory reads as with the font alone. -/
theorem read_loadedMemory_outside {font : Vector Byte 80} {image : List Byte} {a : Nat}
    (h : a < imageBase ∨ imageBase + image.length ≤ a) :
    (loadedMemory font image).read a = (Memory.writeBytes [] 0 font.toList).read a :=
  read_writeBytes_outside h

/-- The font stands in the low bytes (R40, R42): the image begins past it. -/
theorem read_loadedMemory_font {font : Vector Byte 80} {image : List Byte} (k : Fin 80) :
    (loadedMemory font image).read k.val = font[k] := by
  rw [read_loadedMemory_outside (Or.inl (by unfold imageBase; omega)), read_fontMemory]

/-- Memory outside the font and the image is 0 (R40). -/
theorem read_loadedMemory_rest {font : Vector Byte 80} {image : List Byte} {a : Nat} (hfont : 80 ≤ a)
    (himage : a < imageBase ∨ imageBase + image.length ≤ a) : (loadedMemory font image).read a = 0 := by
  rw [read_loadedMemory_outside himage, read_fontMemory_of_ge font hfont]

/-! ## Pixels -/

/-- A pixel of the screen is its bit of the framebuffer (R36). -/
theorem pixel_eq_getLsbD {fb : FrameBuffer} {col row : Nat} (hc : col < 64) (hr : row < 32) :
    pixel fb col row = (fb.toList.getD (pixelByte col row) 0).getLsbD (pixelBit col) := by
  have hb := pixelByte_lt hc hr
  rw [pixel, dif_pos hb, List.getD_eq_getElem _ _ (by simpa using hb), Vector.getElem_toList]

end Sys2Proof.Machine

namespace Sys2Proof.Claims

open Sys2Proof Sys2Proof.Machine

/-- Settles O27: by the equations of `load`, the three address ranges read as `loadedMemory` says. -/
theorem loadPlacesFontAndImage : Obligations.LoadPlacesFontAndImage := by
  intro font p image
  refine ⟨load_of_lt_length, fun hfits => ⟨_, load_of_length_le hfits, rfl, ?font, ?between, ?image, ?after⟩⟩
  case font => exact read_loadedMemory_font
  case between => exact fun a hfont hbase => read_loadedMemory_rest hfont (.inl hbase)
  case image => exact fun k hk => read_loadedMemory_image hfits hk
  case after => exact fun a ha _ => read_loadedMemory_rest (by omega) (.inr ha)

/-- Settles O26: every loaded state has the pc of reset, which is below the bound of the fetch. -/
theorem firstFetchIsAtTheEntryPoint : Obligations.FirstFetchIsAtTheEntryPoint := by
  refine ⟨rfl, fun font p image s hload => ?_⟩
  obtain ⟨-, rfl⟩ := load_eq_loaded hload
  have hpc : State.reset.pc.toNat ≤ 0xFFE := by decide
  exact ⟨rfl, rfl, fetch_of_le hpc⟩

/-- Settles O56: a pixel is read as its bit, and equal pixels are equal bits of every byte. -/
theorem pixelsAreTheBitsOfTheFramebuffer : Obligations.PixelsAreTheBitsOfTheFramebuffer :=
  fun _ => ⟨fun _ hc _ hr => pixel_eq_getLsbD hc hr, fun _ => frameBuffer_ext⟩

end Sys2Proof.Claims
end

section
/-! SUPPORT and PROOFS, family 20_memory.md. What a step does to memory, said once: it writes a run of bytes, the ones
`storedByStep` names, and the fetch of a later word reads them. -/

namespace Sys2Proof.Machine

/-! ## Runs of stored bytes -/

/-- `m'` is `m` after a run of bytes inside the address space, and `stored` says which byte went to which address. -/
def Stores (stored : Nat → Option Byte) (m m' : Memory) : Prop :=
  ∃ (base : Nat) (bs : List Byte), base + bs.length ≤ memSize ∧ m' = m.writeBytes base bs ∧
    ∀ a, stored a = if base ≤ a then bs[a - base]? else none

/-- Memory left alone is the empty run. -/
theorem Stores.nothing (m : Memory) : Stores (fun _ => none) m m :=
  ⟨0, [], Nat.zero_le _, rfl, fun _ => rfl⟩

/-- An address that nothing is stored to reads as before, in any memory. -/
theorem Stores.read_of_none {stored : Nat → Option Byte} {m m' : Memory} {a : Nat} (h : Stores stored m m')
    (ha : stored a = none) : m'.read a = m.read a := by
  obtain ⟨base, bs, -, rfl, hstored⟩ := h
  rw [hstored] at ha
  refine read_writeBytes_outside (or_iff_not_imp_left.2 fun hge => ?_)
  rw [if_pos (by omega), List.getElem?_eq_none_iff] at ha
  omega

/-- A canonical memory reads back the byte stored. -/
theorem Stores.read_of_some {stored : Nat → Option Byte} {m m' : Memory} {a : Nat} {b : Byte}
    (h : Stores stored m m') (hwf : m.wf = true) (ha : stored a = some b) : m'.read a = b := by
  obtain ⟨base, bs, hfit, rfl, hstored⟩ := h
  rw [hstored, Option.ite_none_right_eq_some] at ha
  obtain ⟨hle, hget⟩ := ha
  obtain ⟨hlt, rfl⟩ := List.getElem?_eq_some_iff.1 hget
  simpa [Nat.add_sub_cancel' hle] using read_writeBytes hfit hwf hlt

/-! ## What an instruction does to memory -/

/-- Memory is left alone by every instruction but `FX33` and `FX55` (R52). -/
theorem exec_mem_of_not_store {i : Instr} {s t : State} (h : exec i s = .next t) (hb : ∀ x, i ≠ .ldBVx x)
    (hm : ∀ x, i ≠ .ldMemVx x) : t.mem = s.mem := by
  cases i
  case ldBVx x => exact absurd rfl (hb x)
  case ldMemVx x => exact absurd rfl (hm x)
  case ret =>
    cases h
    by_cases hsp : 0 < s.sp.val
    · simp only [pop_of_pos hsp, advance_mem]
    · simp only [pop_empty (show s.sp.val = 0 by omega), raiseAt_mem]
  case call =>
    cases h
    by_cases hsp : s.sp.val < 16
    · simp only [push_of_lt hsp, advance_mem]
    · simp only [push_full (show s.sp.val = 16 by omega), raiseAt_mem]
  case drw | ldVxMem | skp | sknp | ldVxK =>
    cases h
    split <;> simp
  case orReg | andReg | xorReg =>
    cases h
    simp
  all_goals
    cases h
    rfl

/-- The bytes of a block store, by index: register `k` for `k` up to `x` (R164). -/
theorem regBytes_getElem? (x : RegIx) (s : State) (k : Nat) :
    (regBytes x s)[k]? = if k ≤ x.val then s.v.toList[k]? else none := by
  simp only [regBytes, List.getElem?_take, Nat.lt_succ_iff]

/-- A fetch inside memory answers a word, its halves the two bytes read (R51, R57). -/
theorem fetch_halves {m : Memory} {p : Word} (hp : p.toNat ≤ 0xFFE) :
    ∃ op, m.fetch p = some op ∧ op.toNat / 256 = (m.read p.toNat).toNat ∧
      op.toNat % 256 = (m.read (p.toNat + 1)).toNat := by
  refine ⟨_, fetch_of_le hp, ?_, ?_⟩ <;> rw [bigEndian_toNat] <;> omega

/-- No instruction stands where the fetch would pass the end of memory. -/
theorem instrAt_of_gt {s : State} (h : 0xFFE < s.pc.toNat) : instrAt s = none := by
  simp only [instrAt, fetch_of_gt h]

/-- No instruction stands where the word fetched is undefined. -/
theorem instrAt_of_decode_error {s : State} {op : Word} {e : DecodeError} (hop : s.mem.fetch s.pc = some op)
    (he : decode op = .error e) : instrAt s = none := by
  simp only [instrAt, hop, he]

end Sys2Proof.Machine

namespace Sys2Proof.Claims

open Sys2Proof Sys2Proof.Machine

/-- `FX33` stores its three digits from `I` on, or nothing (R163). -/
theorem stores_ldBVx {x : RegIx} {s t : State} (h : exec (.ldBVx x) s = .next t) :
    Stores (byteStored (.ldBVx x) s) s.mem t.mem := by
  cases h
  by_cases hfit : s.i.toNat + 3 ≤ 0x1000
  · rw [if_pos (inRange_iff.2 (.inr hfit))]
    refine ⟨s.i.toNat, bcdDigits (getV x s), hfit, rfl, fun a => ?_⟩
    rw [byteStored, if_pos hfit]
    rcases Nat.lt_or_ge a s.i.toNat with hlt | hge
    · simp only [show ¬ s.i.toNat ≤ a by omega, show a ≠ s.i.toNat by omega, show a ≠ s.i.toNat + 1 by omega,
        show a ≠ s.i.toNat + 2 by omega, if_false]
    · obtain ⟨k, rfl⟩ := Nat.exists_eq_add_of_le hge
      match k with
      | 0 | 1 | 2 => simp [bcdDigits, getV]
      | k + 3 => simp [bcdDigits]
  · rw [if_neg (by simpa [inRange_iff, memSize] using hfit)]
    have hnone : byteStored (.ldBVx x) s = fun _ => none := funext fun _ => if_neg hfit
    rw [hnone]
    exact .nothing s.mem

/-- `FX55` stores `V[0]` to `V[x]` from `I` on, or nothing (R164). -/
theorem stores_ldMemVx {x : RegIx} {s t : State} (h : exec (.ldMemVx x) s = .next t) :
    Stores (byteStored (.ldMemVx x) s) s.mem t.mem := by
  cases h
  by_cases hfit : s.i.toNat + x.val + 1 ≤ 0x1000
  · rw [if_pos (inRange_iff.2 (.inr hfit))]
    refine ⟨s.i.toNat, regBytes x s, by rwa [regBytes_length], by simp, fun a => ?_⟩
    simp only [byteStored, regBytes_getElem?, hfit, true_and, ite_and]
    by_cases hge : s.i.toNat ≤ a
    · simp only [hge, if_true, Nat.sub_le_iff_le_add']
    · simp only [hge, if_false]
  · rw [if_neg (by simp only [inRange_iff, memSize]; omega)]
    have hnone : byteStored (.ldMemVx x) s = fun _ => none := funext fun _ => if_neg fun hall => hfit hall.1
    rw [hnone]
    exact .nothing s.mem

/-- An executed instruction stores the bytes that `byteStored` names and no others. -/
theorem exec_stores {i : Instr} {s t : State} (h : exec i s = .next t) : Stores (byteStored i s) s.mem t.mem := by
  cases i
  case ldBVx => exact stores_ldBVx h
  case ldMemVx => exact stores_ldMemVx h
  all_goals
    rw [exec_mem_of_not_store h nofun nofun]
    exact .nothing s.mem

/-- The timer decrement is not seen by a store. -/
@[simp] theorem byteStored_tickTimers (i : Instr) (s : State) : byteStored i (tickTimers s) = byteStored i s := rfl

/-- A step stores what the instruction at the pc stores. -/
theorem storedByStep_of_some {s : State} {i : Instr} (h : instrAt s = some i) : storedByStep s = byteStored i s := by
  funext a
  simp only [storedByStep, h]

/-- A step with no instruction at the pc stores nothing. -/
theorem storedByStep_of_none {s : State} (h : instrAt s = none) : storedByStep s = fun _ => none := by
  funext a
  simp only [storedByStep, h]

/-- A step stores the bytes that `storedByStep` names and no others: what it stores is decided by the word fetched
before its writes (R62, D26). -/
theorem step_stores {s t : State} (h : step s = .next t) : Stores (storedByStep s) s.mem t.mem := by
  obtain ⟨-, hstep⟩ := step_cases h
  cases hstep with
  | fetchFault hpc ht =>
    subst ht
    rw [storedByStep_of_none (instrAt_of_gt hpc)]
    exact .nothing s.mem
  | decodeFault op e hop he ht =>
    subst ht
    rw [storedByStep_of_none (instrAt_of_decode_error hop he)]
    exact .nothing s.mem
  | ran op i u hop hi hu hr ht =>
    subst ht
    rw [storedByStep_of_some (instrAt_of_decode hop hi)]
    simpa using exec_stores hu

/-- An address reads the same after any number of steps that do not store to it. -/
theorem read_of_reachedKeeping {a : Nat} {t : State} : ∀ {n : Nat} {u : State}, reachedKeeping a t n u →
    u.mem.read a = t.mem.read a
  | 0, _, rfl => rfl
  | _ + 1, _, ⟨_, hreached, hkept, hstep⟩ =>
    ((step_stores hstep).read_of_none hkept).trans (read_of_reachedKeeping hreached)

/-- Settles O60: the storing step puts the byte in memory, every later step keeps it there, and a fetch reads memory. -/
theorem storedByteIsSeenByEveryLaterFetch : Obligations.StoredByteIsSeenByEveryLaterFetch := by
  intro s t a b hwf hstep hstored n u hreached
  have hread : u.mem.read a = b :=
    (read_of_reachedKeeping hreached).trans ((step_stores hstep).read_of_some hwf hstored)
  refine ⟨hread, fun p hp => ?_⟩
  obtain ⟨op, hop, hhigh, hlow⟩ := fetch_halves (m := u.mem) hp
  refine ⟨op, hop, ?_, ?_⟩
  · rintro rfl
    rw [hhigh, hread]
  · rintro rfl
    rw [hlow, hread]

end Sys2Proof.Claims
end

section
/-! SUPPORT and PROOFS, family 40_cycle_engine.md. A legal word is the encoding of its instruction, the end of a step
for a faulted and for an unfaulted state, and the pc that every instruction leaves. -/

namespace Sys2Proof.Machine

/-! ## A legal word is the encoding of its instruction -/

/-- The field `x` put back is the bits read (R71). -/
theorem regField_opX (op : Word) : regField (opX op) = op.extractLsb' 8 4 := rfl

/-- The field `y` put back is the bits read (R71). -/
theorem regField_opY (op : Word) : regField (opY op) = op.extractLsb' 4 4 := rfl

/-- A word of format `NNN` is made of its fields (R71). -/
theorem encodeNNN_of_fields {op : Word} {c : Nibble} (hc : (opC op).toNat = c.toNat) :
    encodeNNN c (opNNN op) = op := by
  obtain rfl := BitVec.eq_of_toNat_eq hc
  refine BitVec.eq_of_getLsbD_eq fun i hi => ?_
  rw [Laws.encodeNNN_getLsbD, opC, opNNN]
  interval_cases i <;> simp

/-- A word of format `XNN` or `X` is made of its fields (R71). -/
theorem encodeXNN_of_fields {op : Word} {c : Nibble} {nn : Byte} (hc : (opC op).toNat = c.toNat)
    (hnn : (opNN op).toNat = nn.toNat) : encodeXNN c (opX op) nn = op := by
  obtain rfl := BitVec.eq_of_toNat_eq hc
  obtain rfl := BitVec.eq_of_toNat_eq hnn
  refine BitVec.eq_of_getLsbD_eq fun i hi => ?_
  rw [Laws.encodeXNN_getLsbD, opC, regField_opX, opNN]
  interval_cases i <;> simp

/-- A word of format `XY` or `XYN` is made of its fields (R71). -/
theorem encodeXY_of_fields {op : Word} {c n : Nibble} (hc : (opC op).toNat = c.toNat)
    (hn : (opN op).toNat = n.toNat) : encodeXY c (opX op) (opY op) n = op := by
  obtain rfl := BitVec.eq_of_toNat_eq hc
  obtain rfl := BitVec.eq_of_toNat_eq hn
  refine BitVec.eq_of_getLsbD_eq fun i hi => ?_
  rw [Laws.encodeXY_getLsbD, opC, regField_opX, regField_opY, opN]
  interval_cases i <;> simp

/-- Category 0 ignores no bit (R78). -/
theorem encode_of_decode0 {op : Word} {i : Instr} (h : decode0 op = .ok i) : encode i = op := by
  unfold decode0 at h
  split at h
  · cases h
    exact ‹op = _›.symm
  · split at h
    · cases h
      exact ‹op = _›.symm
    · cases h

/-- Category 8 ignores no bit (R78). -/
theorem encode_of_decode8 {op : Word} {i : Instr} (hc : (opC op).toNat = 8) (h : decode8 op = .ok i) :
    encode i = op := by
  unfold decode8 at h
  split at h <;> cases h <;> exact encodeXY_of_fields hc ‹_›

/-- Category E ignores no bit (R78). -/
theorem encode_of_decodeE {op : Word} {i : Instr} (hc : (opC op).toNat = 0xE) (h : decodeE op = .ok i) :
    encode i = op := by
  unfold decodeE at h
  split at h <;> cases h <;> exact encodeXNN_of_fields hc ‹_›

/-- Category F ignores no bit (R78). -/
theorem encode_of_decodeF {op : Word} {i : Instr} (hc : (opC op).toNat = 0xF) (h : decodeF op = .ok i) :
    encode i = op := by
  unfold decodeF at h
  split at h <;> cases h <;> exact encodeXNN_of_fields hc ‹_›

/-- A word that decodes is the encoding of its instruction (R78), category by category: case `h_k` is category `k - 1`
of R76, and the last case is the arm that no category reaches. -/
theorem encode_of_decode {op : Word} {i : Instr} (h : decode op = .ok i) : encode i = op := by
  unfold decode at h
  split at h
  case h_1 => exact encode_of_decode0 h
  case h_2 | h_3 | h_11 | h_12 =>
    cases h
    exact encodeNNN_of_fields ‹_›
  case h_4 | h_5 | h_7 | h_8 | h_13 =>
    cases h
    exact encodeXNN_of_fields ‹_› rfl
  case h_6 | h_10 =>
    split at h <;> cases h
    exact encodeXY_of_fields ‹_› (congrArg BitVec.toNat ‹opN op = 0›)
  case h_9 => exact encode_of_decode8 ‹_› h
  case h_14 =>
    cases h
    exact encodeXY_of_fields ‹_› rfl
  case h_15 => exact encode_of_decodeE ‹_› h
  case h_16 => exact encode_of_decodeF ‹_› h
  case h_17 => cases h

/-! ## The pc by class -/

/-- A fetch that answers lies within memory (R51). -/
theorem pc_le_of_fetch {m : Memory} {pc op : Word} (h : m.fetch pc = some op) : pc.toNat ≤ 0xFFE := by
  by_contra hgt
  rw [fetch_of_gt (by omega)] at h
  cases h

/-- The pc of class `Seq`: no advance from a fetched pc wraps (R106). -/
theorem nextPc_seq_toNat {pc : Word} (h : pc.toNat ≤ 0xFFE) : (nextPc .seq pc).toNat = pc.toNat + 2 := by
  simp only [nextPc]
  bv_omega

/-- The pc of a skip taken exactly under `p`: no advance from a fetched pc wraps (R106). -/
theorem nextPc_skip_toNat {pc : Word} {taken : Bool} {p : Prop} [Decidable p] (h : pc.toNat ≤ 0xFFE)
    (hp : taken = true ↔ p) : (nextPc (.skip taken) pc).toNat = pc.toNat + if p then 4 else 2 := by
  cases taken
  · rw [if_neg (mt hp.2 Bool.false_ne_true)]
    exact nextPc_seq_toNat h
  · rw [if_pos (hp.1 rfl)]
    simp only [nextPc, if_true]
    bv_omega

/-- The pc of a skip taken unless `p` (R106). -/
theorem nextPc_skip_unless_toNat {pc : Word} {taken : Bool} {p : Prop} [Decidable p] (h : pc.toNat ≤ 0xFFE)
    (hp : taken = false ↔ p) : (nextPc (.skip taken) pc).toNat = pc.toNat + if p then 2 else 4 := by
  rw [nextPc_skip_toNat (p := ¬ p) h (by rw [← hp, Bool.not_eq_false]), ite_not]

/-- An address operand as a number (R72). -/
theorem zextAddr_toNat (nnn : Addr) : (zextAddr nnn).toNat = nnn.toNat := by
  rw [zextAddr, BitVec.toNat_setWidth]
  omega

/-- The target of `BNNN` as a number: the sum never wraps (R127). -/
theorem offsetTarget_toNat (nnn : Addr) (s : State) : (offsetTarget nnn s).toNat = nnn.toNat + (getV 0 s).toNat := by
  have hnnn := nnn.isLt
  have hv := (getV 0 s).isLt
  rw [offsetTarget, zextByte, BitVec.toNat_add, zextAddr_toNat, BitVec.toNat_setWidth]
  omega

/-! ## The instructions whose pc depends on the state -/

/-- No bit of the word is set exactly when it is 0 (R185). -/
theorem leastBit_eq_none_iff_zero {w : Word} : leastBit w = none ↔ w = 0 := by
  rw [leastBit_eq_none]
  refine ⟨fun h => BitVec.eq_of_getLsbD_eq fun k hk => ?_, ?_⟩
  · exact (h k hk).trans BitVec.getLsbD_zero.symm
  · rintro rfl k -
    exact BitVec.getLsbD_zero

/-- The inversion of `FX0A`: with no new press it stays where it is and waits, else it writes `V[x]` and goes on
(R185). -/
theorem execLdVxK_cases {x : RegIx} {s t : State} (h : execLdVxK x s = .next t) :
    (newPresses s = 0 ∧ t = advance .stay s) ∨ (newPresses s ≠ 0 ∧ ∃ b, t = advance .seq (setV x b s)) := by
  cases h
  rcases hbit : leastBit (newPresses s) with _ | k
  · exact .inl ⟨leastBit_eq_none_iff_zero.1 hbit, rfl⟩
  · refine .inr ⟨fun hnone => ?_, _, rfl⟩
    rw [leastBit_eq_none_iff_zero.2 hnone] at hbit
    cases hbit

/-- `EX9E` that took no fault skips exactly when the button is down (R183). -/
theorem execSkp_not_faulted {x : RegIx} {s t : State} (h : execSkp x s = .next t) (ht : t.faulted = false) :
    t = advance (.skip (buttonDown (getV x s).toNat s)) s := by
  cases h
  rcases Nat.lt_or_ge 15 (getV x s).toNat with hgt | hle
  · simp [buttonIndex_of_gt hgt] at ht
  · simp only [buttonIndex_of_le hle]

/-- `EXA1` that took no fault skips exactly when the button is up (R184). -/
theorem execSknp_not_faulted {x : RegIx} {s t : State} (h : execSknp x s = .next t) (ht : t.faulted = false) :
    t = advance (.skip (!buttonDown (getV x s).toNat s)) s := by
  cases h
  rcases Nat.lt_or_ge 15 (getV x s).toNat with hgt | hle
  · simp [buttonIndex_of_gt hgt] at ht
  · simp only [buttonIndex_of_le hle]

/-- A return that took no fault goes to the entry popped (R120). -/
theorem execRet_pc {s t : State} (h : execRet s = .next t) (ht : t.faulted = false) :
    t.pc = s.stack.toList.getD (s.sp.val - 1) 0 := by
  cases h
  rcases Nat.eq_zero_or_pos s.sp.val with hempty | hpos
  · simp [pop_empty hempty] at ht
  · have hlt : s.sp.val - 1 < s.stack.toList.length := by
      rw [Vector.length_toList]
      omega
    simp only [pop_of_pos hpos, advance_pc, nextPc]
    rw [List.getD_eq_getElem _ _ hlt, Vector.getElem_toList]

/-- A call that took no fault goes to its target (R122). -/
theorem execCall_pc {nnn : Addr} {s t : State} (h : execCall nnn s = .next t) (ht : t.faulted = false) :
    t.pc = zextAddr nnn := by
  cases h
  rcases Nat.lt_or_ge s.sp.val 16 with hlt | hge
  · simp only [push_of_lt hlt, advance_pc, nextPc]
  · simp [push_full (show s.sp.val = 16 by omega)] at ht

end Sys2Proof.Machine

namespace Sys2Proof.Claims

open Sys2Proof Sys2Proof.Machine

/-! ## The step -/

/-- Within memory the fetch answers the word at the pc (R51). -/
theorem fetch_eq_wordAt {s : State} (h : s.pc.toNat ≤ 0xFFE) : s.mem.fetch s.pc = some (wordAt s) := by
  rw [fetch_of_le h, wordAt, ← bigEndian_toNat, BitVec.ofNat_toNat, BitVec.setWidth_eq]

/-- A step that took a fault ends with the bitmask unrecorded (R109). -/
theorem endStep_raise_tickTimers (kind : FaultKind) (op : Option Word) (s : State) :
    endStep (raise kind op (tickTimers s)) = inputTaken s (withFault kind op (tickTimers s)) := rfl

/-- The word that the outcome of a faulting step carries: none where the fetch faulted, else the word fetched
(R101). -/
def faultWord (s : State) : Option Word := if 0xFFE < s.pc.toNat then none else some (wordAt s)

/-- A step that fetched reports its word. -/
theorem faultWord_of_fetch {s : State} {op : Word} (h : s.mem.fetch s.pc = some op) : faultWord s = some op := by
  have hpc := pc_le_of_fetch h
  rw [faultWord, if_neg (by omega), ← fetch_eq_wordAt hpc, h]

/-- What a step that answers a next state left (R103): a fault with the word fetched, or the instruction's own effect,
completed, with the bitmask recorded. -/
inductive StepEnd (s t : State) : Prop where
  | faulted (kind : FaultKind) (h : t = inputTaken s (withFault kind (faultWord s) (tickTimers s)))
  | completed (i : Instr) (u : State) (k : NextPc) (hpc : s.pc.toNat ≤ 0xFFE) (hi : instrAt s = some i)
      (hu : exec i (tickTimers s) = .next u) (hf : u.faulted = false) (ho : u.outcome = some (outcomeOf k))
      (hin : currentInput u = currentInput s) (h : t = endStep u)

/-- Every step ends in a fault or completes its instruction. -/
theorem step_end {s t : State} (h : step s = .next t) : StepEnd s t := by
  obtain ⟨hs, hstep⟩ := step_cases h
  cases hstep with
  | fetchFault hpc ht =>
    refine .faulted .capacityFault ?_
    rw [ht, endStep_raise_tickTimers, faultWord, if_pos hpc]
  | decodeFault op e hop he ht =>
    refine .faulted .decodeFault ?_
    rw [ht, endStep_raise_tickTimers, faultWord_of_fetch hop]
  | ran op i u hop hi hu hr ht =>
    cases hr with
    | fault kind _ hraise =>
      refine .faulted kind ?_
      rw [ht, hraise, raiseAt, endStep_raise_tickTimers, encode_of_decode hi, faultWord_of_fetch hop]
    | done k ho hf _ _ hinputs hstepNo =>
      refine .completed i u k (pc_le_of_fetch hop) (instrAt_of_decode hop hi) hu (hf.trans hs) ho ?_ ht
      exact (currentInput_congr hinputs hstepNo).trans (currentInput_tickTimers s)

/-- Settles O9: the two equations of `step`, by the latch. -/
theorem stepExistsExactlyWhileNotFaulted : Obligations.StepExistsExactlyWhileNotFaulted := by
  refine fun s => ⟨fun hclear => ?_, step_of_faulted⟩
  obtain ⟨t, ht, -⟩ := step_of_not_faulted hclear
  exact ⟨t, ht⟩

/-- Settles O10: a step that left the latch set did not complete, and the word it reports is the one fetched, since
a legal word is the encoding of its instruction. -/
theorem faultingStepWritesOnlyTimersAndLatch : Obligations.FaultingStepWritesOnlyTimersAndLatch := by
  intro s t hstep hfault
  cases step_end hstep with
  | faulted kind ht => exact ⟨kind, ht⟩
  | completed i u k _ _ _ hf _ _ ht =>
    subst ht
    rw [endStep_faulted, hf] at hfault
    cases hfault

/-- The outcome of `FX0A` is the wait exactly when no button went down (R185). -/
theorem exec_ldVxK_waits_iff {x : RegIx} {s u : State} (h : exec (.ldVxK x) s = .next u) :
    u.outcome = some .haltedAwaitingInput ↔ newPresses s = 0 := by
  obtain ⟨hnone, rfl⟩ | ⟨hsome, b, rfl⟩ := execLdVxK_cases h
  · exact iff_of_true rfl hnone
  · exact iff_of_false nofun hsome

/-- Settles O12: such an outcome is no fault, so the step completed its instruction and its end recorded the bitmask,
after `FX0A` looked at the one of the step before. -/
theorem nonFaultingStepRecordsTheBitmask : Obligations.NonFaultingStepRecordsTheBitmask := by
  intro s t hstep hout
  cases step_end hstep with
  | faulted kind ht =>
    subst ht
    rcases hout with hout | hout <;> cases hout
  | completed i u k _ hi hu hf _ hin ht =>
    subst ht
    refine ⟨?recorded, fun x hx => ?compared⟩
    case recorded => simp [hf, hin]
    case compared =>
      obtain rfl : i = .ldVxK x := Option.some.inj (hi.symm.trans hx)
      simpa [newPresses] using exec_ldVxK_waits_iff hu

/-! ## The pc after an instruction -/

/-- An instruction that took no fault leaves the pc of its class, from a pc that a fetch reads (R106, R110). -/
theorem exec_pc_eq_pcAfter {i : Instr} {s t : State} (h : exec i s = .next t) (hpc : s.pc.toNat ≤ 0xFFE)
    (ht : t.faulted = false) : t.pc.toNat = pcAfter i s := by
  cases i
  case ret => rw [execRet_pc h ht, pcAfter]
  case call nnn => rw [execCall_pc h ht, zextAddr_toNat, pcAfter]
  case jp nnn =>
    cases h
    exact zextAddr_toNat nnn
  case jpV0 nnn =>
    cases h
    exact offsetTarget_toNat nnn s
  case seImm | seReg =>
    cases h
    exact nextPc_skip_toNat hpc decide_eq_true_iff
  case sneImm | sneReg =>
    cases h
    exact nextPc_skip_unless_toNat hpc (decide_eq_false_iff_not.trans not_not)
  case skp x =>
    rw [execSkp_not_faulted h ht]
    exact nextPc_skip_toNat hpc Iff.rfl
  case sknp x =>
    rw [execSknp_not_faulted h ht]
    exact nextPc_skip_unless_toNat hpc (iff_of_eq (Bool.not_eq_false' _))
  case ldVxK x =>
    rw [pcAfter, ← newPresses]
    obtain ⟨hnone, rfl⟩ | ⟨hsome, b, rfl⟩ := execLdVxK_cases h
    · rw [if_pos hnone]
      rfl
    · rw [if_neg hsome]
      exact nextPc_seq_toNat hpc
  case drw | ldBVx | ldMemVx | ldVxMem =>
    cases h
    split at ht
    next hfit =>
      rw [if_pos hfit]
      simpa [pcAfter] using nextPc_seq_toNat hpc
    next => cases ht
  case orReg | andReg | xorReg =>
    cases h
    simpa [pcAfter] using nextPc_seq_toNat hpc
  all_goals
    cases h
    exact nextPc_seq_toNat hpc

/-- The timer decrement is not seen by the next pc. -/
@[simp] theorem pcAfter_tickTimers (i : Instr) (s : State) : pcAfter i (tickTimers s) = pcAfter i s := rfl

/-- Settles O13: a faulting step keeps the pc, and a completed instruction leaves the pc of its class. -/
theorem stepMovesThePcByItsClass : Obligations.StepMovesThePcByItsClass := by
  intro s t hstep
  cases step_end hstep with
  | faulted kind ht =>
    subst ht
    exact ⟨fun _ => rfl, nofun⟩
  | completed i u k hpc hi hu hf _ _ ht =>
    subst ht
    rw [endStep_faulted, hf, endStep_pc]
    exact ⟨nofun, fun _ => ⟨i, hi, by simpa using exec_pc_eq_pcAfter hu hpc hf⟩⟩

end Sys2Proof.Claims
end

section
/-! SUPPORT and PROOFS, family 41_control_flow.md. The words of the statements as encodings, decoding of an encoded
instruction, and what a push, a pop and a skip leave, the whole state said once. -/

namespace Sys2Proof.Laws

/-- Bits put in front of a word, as a number (R71). -/
theorem append_toNat {m n : Nat} (hi : BitVec m) (lo : BitVec n) :
    (hi ++ lo).toNat = 2 ^ n * hi.toNat + lo.toNat := by
  rw [BitVec.toNat_append, Nat.shiftLeft_eq, Nat.mul_comm, Nat.two_pow_add_eq_or_of_lt lo.isLt]

/-- A word of format `NNN` as a number (R71). -/
theorem encodeNNN_toNat (c : Nibble) (nnn : Addr) : (encodeNNN c nnn).toNat = 4096 * c.toNat + nnn.toNat :=
  append_toNat c nnn

/-- A register field as a number (R71). -/
theorem regField_toNat (x : RegIx) : (regField x).toNat = x.val := rfl

/-- A word of format `XNN` or `X` as a number (R71). -/
theorem encodeXNN_toNat (c : Nibble) (x : RegIx) (nn : Byte) :
    (encodeXNN c x nn).toNat = 4096 * c.toNat + 256 * x.val + nn.toNat := by
  rw [encodeXNN, append_toNat, append_toNat, regField_toNat]
  omega

/-- A word of format `XY` or `XYN` as a number (R71). -/
theorem encodeXY_toNat (c : Nibble) (x y : RegIx) (n : Nibble) :
    (encodeXY c x y n).toNat = 4096 * c.toNat + 256 * x.val + 16 * y.val + n.toNat := by
  rw [encodeXY, append_toNat, append_toNat, append_toNat, regField_toNat, regField_toNat]
  omega

/-- An encoded instruction decodes to itself, category by category (R76). -/
theorem decode_encode (i : Instr) : decode (encode i) = .ok i := by
  cases i
  case cls | ret => rfl
  case ldReg | orReg | andReg | xorReg | addReg | sub | shr | subn | shl => simp [encode, decode, decode8]
  case skp | sknp => simp [encode, decode, decodeE]
  case ldVxDt | ldVxK | ldDtVx | ldStVx | addIVx | ldFVx | ldBVx | ldMemVx | ldVxMem =>
    simp [encode, decode, decodeF]
  all_goals simp [encode, decode]

/-- A register comparison with a non-zero low nibble is no instruction (R77, the spec's decision D4). -/
theorem decode_encodeXY_undefined {c n : Nibble} (x y : RegIx) (hc : c = 5 ∨ c = 9) (hn : n ≠ 0#4) :
    decode (encodeXY c x y n) = undefinedWord (encodeXY c x y n) := by
  obtain rfl | rfl := hc <;> simp [decode, hn]

end Sys2Proof.Laws

namespace Sys2Proof.Machine

/-- A push with `k` entries in use writes entry `k` (R27). -/
theorem push_of_sp_eq {w : Word} {s : State} {k : Fin 16} (h : s.sp.val = k.val) :
    push w s = some { s with stack := s.stack.set k.val w, sp := k.succ } := by
  have hsp : s.sp = k.castSucc := Fin.ext h
  rw [push_of_lt (by omega)]
  simp only [hsp]
  rfl

/-- A pop with `k + 1` entries in use answers entry `k` (R27). -/
theorem pop_of_sp_eq {s : State} {k : Fin 16} (h : s.sp.val = k.val + 1) :
    pop s = some (s.stack[k], { s with sp := k.castSucc }) := by
  have hsp : s.sp = k.succ := Fin.ext h
  rw [pop_of_pos (by omega)]
  simp only [hsp]
  rfl

/-- `00EE` on an empty stack (R234). -/
theorem execRet_of_empty {s : State} (h : s.sp.val = 0) : execRet s = .next (raiseAt .ret .stackUnderflow s) := by
  rw [execRet, pop_empty h]

/-- `00EE` with `k + 1` entries in use (R120). -/
theorem execRet_of_sp_eq {s : State} {k : Fin 16} (h : s.sp.val = k.val + 1) :
    execRet s = .next (advance (.jump s.stack[k]) { s with sp := k.castSucc }) := by
  rw [execRet, pop_of_sp_eq h]

/-- `2NNN` on a full stack (R233). -/
theorem execCall_of_full {nnn : Addr} {s : State} (h : s.sp.val = 16) :
    execCall nnn s = .next (raiseAt (.call nnn) .stackOverflow s) := by
  rw [execCall, push_full h]

/-- `2NNN` with `k` entries in use (R122). -/
theorem execCall_of_sp_eq {nnn : Addr} {s : State} {k : Fin 16} (h : s.sp.val = k.val) :
    execCall nnn s =
      .next (advance (.jump (zextAddr nnn)) { s with stack := s.stack.set k.val (s.pc + 2), sp := k.succ }) := by
  rw [execCall, push_of_sp_eq h]

/-- A skip taken exactly under `p` moves the pc, and the step is completed (R106). -/
theorem advance_skip {taken : Bool} {p : Prop} [Decidable p] (s : State) (hp : taken = true ↔ p) :
    advance (.skip taken) s = { s with pc := s.pc + (if p then 4 else 2), outcome := some .completed } := by
  by_cases h : p
  · simp only [advance, nextPc, outcomeOf, hp, h, if_true]
  · simp only [advance, nextPc, outcomeOf, hp, h, if_false]

/-- A skip taken unless `p` (R106). -/
theorem advance_skip_unless {taken : Bool} {p : Prop} [Decidable p] (s : State) (hp : taken = false ↔ p) :
    advance (.skip taken) s = { s with pc := s.pc + (if p then 2 else 4), outcome := some .completed } := by
  rw [advance_skip (p := ¬ p) s (by rw [← hp, Bool.not_eq_false]), ite_not]

end Sys2Proof.Machine

namespace Sys2Proof.Claims

open Sys2Proof Sys2Proof.Machine

/-! ## The words of the statements are encodings -/

/-- The word of format `NNN` with category `c` in its fixed bits (R73). -/
theorem wordNNN_eq_encodeNNN (c : Nibble) (nnn : Addr) : wordNNN (4096 * c.toNat) nnn = encodeNNN c nnn := by
  rw [wordNNN, ← Laws.encodeNNN_toNat, BitVec.ofNat_toNat, BitVec.setWidth_eq]

/-- The word of format `XNN` with category `c` in its fixed bits (R73). -/
theorem wordXNN_eq_encodeXNN (c : Nibble) (x : RegIx) (nn : Byte) :
    wordXNN (4096 * c.toNat) x nn = encodeXNN c x nn := by
  rw [wordXNN, ← Laws.encodeXNN_toNat, BitVec.ofNat_toNat, BitVec.setWidth_eq]

/-- The word of format `XY` with category `c` and sub-opcode `n` in its fixed bits (R73). -/
theorem wordXY_eq_encodeXY (c n : Nibble) (x y : RegIx) :
    wordXY (4096 * c.toNat + n.toNat) x y = encodeXY c x y n := by
  have hsum : 4096 * c.toNat + n.toNat + 256 * x.val + 16 * y.val = (encodeXY c x y n).toNat := by
    rw [Laws.encodeXY_toNat]
    omega
  rw [wordXY, hsum, BitVec.ofNat_toNat, BitVec.setWidth_eq]

/-- A word that is the encoding of an instruction decodes to it. -/
theorem decode_of_eq_encode {op : Word} {i : Instr} (h : op = encode i) : decode op = .ok i :=
  h ▸ Laws.decode_encode i

/-- A word that is a register comparison but for a non-zero low nibble is no instruction (the spec's decision D4). -/
theorem decode_wordXY_ne_ok {c : Nibble} {n : Nat} (hc : c = 5 ∨ c = 9) (hpos : 0 < n) (hlt : n < 16) (x y : RegIx)
    (i : Instr) : decode (wordXY (4096 * c.toNat + n) x y) ≠ .ok i := by
  have hnib : n = (BitVec.ofNat 4 n).toNat := (Nat.mod_eq_of_lt hlt).symm
  have hne : BitVec.ofNat 4 n ≠ 0#4 := fun hzero => by
    rw [hzero] at hnib
    exact hpos.ne' hnib
  rw [hnib, wordXY_eq_encodeXY, Laws.decode_encodeXY_undefined x y hc hne]
  nofun

/-! ## Subroutines -/

/-- Settles O31: by the equation of the call on a full stack, and with `k` entries in use. -/
theorem callPushesOrOverflows : Obligations.CallPushesOrOverflows := by
  intro nnn
  have hword : wordNNN 0x2000 nnn = encode (.call nnn) := wordNNN_eq_encodeNNN 2 nnn
  refine ⟨decode_of_eq_encode hword, fun s hfull => ?overflow, fun s k hk => ?pushed⟩
  case overflow =>
    rw [hword]
    exact execCall_of_full hfull
  case pushed =>
    refine ⟨_, execCall_of_sp_eq hk, ?frame, fun j => ?entry⟩
    case frame =>
      rw [BitVec.ofNat_toNat]
      rfl
    case entry =>
      simp only [advance_stack, Fin.getElem_fin, Vector.getElem_set, Fin.val_inj, eq_comm (a := k)]
      rw [apply_ite BitVec.toNat, BitVec.toNat_add]
      rfl

/-- Settles O30: by the equation of the return on an empty stack, and with `k + 1` entries in use. -/
theorem returnPopsOrUnderflows : Obligations.ReturnPopsOrUnderflows :=
  ⟨rfl, fun _ hempty => execRet_of_empty hempty, fun _ _ hk => execRet_of_sp_eq hk⟩

/-! ## Jumps and skips -/

/-- Settles O33: the targets as numbers; the jump is the whole effect. -/
theorem jumpsSetThePc : Obligations.JumpsSetThePc := fun nnn s =>
  ⟨decode_of_eq_encode (wordNNN_eq_encodeNNN 1 nnn), decode_of_eq_encode (wordNNN_eq_encodeNNN 0xB nnn),
    ⟨_, rfl, zextAddr_toNat nnn, rfl⟩, ⟨_, rfl, offsetTarget_toNat nnn s, rfl⟩⟩

/-- Settles O34: a skip on the comparison, and one unless it holds. -/
theorem immediateSkipsCompareARegister : Obligations.ImmediateSkipsCompareARegister := fun x nn s =>
  ⟨decode_of_eq_encode (wordXNN_eq_encodeXNN 3 x nn), decode_of_eq_encode (wordXNN_eq_encodeXNN 4 x nn),
    congrArg Host.Outcome.next (advance_skip s decide_eq_true_iff),
    congrArg Host.Outcome.next (advance_skip_unless s (decide_eq_false_iff_not.trans not_not))⟩

/-- Settles O35: a skip on the comparison, and one unless it holds; a non-zero low nibble decodes
to nothing. -/
theorem registerSkipsCompareTwoRegisters : Obligations.RegisterSkipsCompareTwoRegisters := fun x y s =>
  ⟨decode_of_eq_encode (wordXY_eq_encodeXY 5 0 x y), decode_of_eq_encode (wordXY_eq_encodeXY 9 0 x y),
    fun _ hpos hlt => ⟨decode_wordXY_ne_ok (.inl rfl) hpos hlt x y, decode_wordXY_ne_ok (.inr rfl) hpos hlt x y⟩,
    congrArg Host.Outcome.next (advance_skip s decide_eq_true_iff),
    congrArg Host.Outcome.next (advance_skip_unless s (decide_eq_false_iff_not.trans not_not))⟩

end Sys2Proof.Claims
end

section
/-! SUPPORT and PROOFS, family 42_alu.md. What a register holds after the writes of an ALU instruction, the flag bytes
and results as numbers, and from them the loads, the category 8 operations and the random byte. -/

namespace Sys2Proof.Machine

/-! ## The registers after the writes -/

/-- A register reads as what was written to it (R9). -/
theorem setV_getElem_same (x : RegIx) (b : Byte) (s : State) : (setV x b s).v[x] = b :=
  Vector.getElem_set_self _

/-- A write to one register leaves the others (R9). -/
theorem setV_getElem_ne {x k : RegIx} (h : k ≠ x) (b : Byte) (s : State) : (setV x b s).v[k] = s.v[k] :=
  Vector.getElem_set_ne x.isLt k.isLt fun heq => h (Fin.ext heq.symm)

/-- The flag is what `VF` holds at the end, for every destination (R140, the spec's decision D5). -/
theorem setResultFlag_getElem_flag (x : RegIx) (r f : Byte) (s : State) :
    (setResultFlag x r f s).v[(15 : Fin 16)] = f :=
  setV_getElem_same regVF f _

/-- The result is what the destination holds at the end, unless it is `VF` (R140). -/
theorem setResultFlag_getElem_result {x : RegIx} (h : x ≠ 15) (r f : Byte) (s : State) :
    (setResultFlag x r f s).v[x] = r :=
  (setV_getElem_ne h f _).trans (setV_getElem_same x r s)

/-- A result and its flag leave the other registers (R140). -/
theorem setResultFlag_getElem_ne {x k : RegIx} (hx : k ≠ x) (hf : k ≠ 15) (r f : Byte) (s : State) :
    (setResultFlag x r f s).v[k] = s.v[k] :=
  (setV_getElem_ne hf f _).trans (setV_getElem_ne hx r s)

/-! ## Results and flags as numbers -/

/-- A difference of bytes is the integer difference modulo 256 (R148). -/
theorem byte_sub_toNat (a b : Byte) : ((a - b).toNat : Int) = ((a.toNat : Int) - b.toNat) % 256 := by
  rw [BitVec.toNat_sub]
  omega

/-- The bit that a right shift moves out is the remainder by 2 (R149). -/
theorem lowBitFlag_toNat (b : Byte) : (lowBitFlag b).toNat = b.toNat % 2 := by
  rw [lowBitFlag, flagByte_toNat, BitVec.getLsbD, Nat.testBit_zero]
  simp only [decide_eq_true_eq]
  split <;> omega

/-- The bit that a left shift moves out is the quotient by 128 (R151). -/
theorem highBitFlag_toNat (b : Byte) : (highBitFlag b).toNat = b.toNat / 128 := by
  have hlt := b.isLt
  rw [highBitFlag, flagByte_toNat, BitVec.getLsbD, Nat.testBit_eq_decide_div_mod_eq]
  simp only [decide_eq_true_eq]
  split <;> omega

/-- The source of a shift, by `P_SHIFT_SRC` (the spec's decision D7). -/
theorem shiftSource_eq (x y : RegIx) (s : State) :
    shiftSource x y s = if s.params.shiftSrc = .x then s.v[x] else s.v[y] := by
  unfold shiftSource
  cases s.params.shiftSrc <;> rfl

end Sys2Proof.Machine

namespace Sys2Proof.Claims

open Sys2Proof Sys2Proof.Machine

/-! ## The effects in the words of the statements -/

/-- The carry as the statements' number (R147). -/
theorem carryFlag_toNat (a b : Byte) : (carryFlag a b).toNat = bit (255 < a.toNat + b.toNat) := by
  simp only [carryFlag, flagByte_toNat, decide_eq_true_eq, bit]

/-- No borrow as the statements' number (R148). -/
theorem noBorrowFlag_toNat (a b : Byte) : (noBorrowFlag a b).toNat = bit (b.toNat ≤ a.toNat) := by
  simp only [noBorrowFlag, flagByte_toNat, decide_eq_true_eq, bit]

/-- A write to one register changes that register at most. -/
theorem registersKept_setV {x : RegIx} {b : Byte} {s : State} :
    registersKept [x] s (advance .seq (setV x b s)) := fun _ hk =>
  setV_getElem_ne (List.ne_of_not_mem_cons hk) b s

/-- A result and its flag change the destination and `VF` at most. -/
theorem registersKept_setResultFlag {x : RegIx} {r f : Byte} {s : State} :
    registersKept [x, 15] s (advance .seq (setResultFlag x r f s)) := fun _ hk =>
  setResultFlag_getElem_ne (List.ne_of_not_mem_cons hk)
    (List.ne_of_not_mem_cons (List.not_mem_of_not_mem_cons hk)) r f s

/-- A logic operation writes registers only, under both values of `P_LOGIC_VF`. -/
theorem onlyRegisters_setLogic (x : RegIx) (r : Byte) (s : State) :
    onlyRegisters s (advance .seq (setLogic x r s)) := by
  cases h : s.params.logicVf
  case unchanged =>
    rw [setLogic_of_unchanged h]
    rfl
  case cleared =>
    rw [setLogic_of_cleared h]
    rfl

/-- Each logic instruction is a logic operation on a result that is its Boolean function bit by bit (R144 to R146). -/
theorem exec_logic {x y : RegIx} {i : Instr} {f : Bool → Bool → Bool}
    (h : (i = .orReg x y ∧ f = or) ∨ (i = .andReg x y ∧ f = and) ∨ (i = .xorReg x y ∧ f = xor)) (s : State) :
    ∃ r : Byte, exec i s = .next (advance .seq (setLogic x r s)) ∧
      ∀ b < 8, r.getLsbD b = f (s.v[x].getLsbD b) (s.v[y].getLsbD b) := by
  obtain ⟨rfl, rfl⟩ | ⟨rfl, rfl⟩ | ⟨rfl, rfl⟩ := h
  · exact ⟨_, rfl, fun _ _ => BitVec.getLsbD_or⟩
  · exact ⟨_, rfl, fun _ _ => BitVec.getLsbD_and⟩
  · exact ⟨_, rfl, fun _ _ => BitVec.getLsbD_xor⟩

/-! ## The logic operations -/

/-- Settles O38: each of the three is a logic operation on its result, whose writes are those of a single register or
of a result with the flag 0, by `P_LOGIC_VF`. -/
theorem logicOperations : Obligations.LogicOperations := by
  intro x y s
  refine ⟨decode_of_eq_encode (wordXY_eq_encodeXY 8 1 x y), decode_of_eq_encode (wordXY_eq_encodeXY 8 2 x y),
    decode_of_eq_encode (wordXY_eq_encodeXY 8 3 x y), fun i f hcase => ?_⟩
  obtain ⟨r, hexec, hbits⟩ := exec_logic hcase s
  refine ⟨_, hexec, onlyRegisters_setLogic x r s, fun hunchanged => ?unchanged, fun hcleared => ?cleared⟩
  case unchanged =>
    rw [setLogic_of_unchanged hunchanged, advance_v, setV_getElem_same]
    exact ⟨registersKept_setV, hbits⟩
  case cleared =>
    rw [setLogic_of_cleared hcleared, advance_v]
    refine ⟨registersKept_setResultFlag, setResultFlag_getElem_flag x r 0 s, fun hx => ?_⟩
    rw [setResultFlag_getElem_result hx]
    exact hbits

/-! ## Arithmetic with a flag -/

/-- Settles O40: the difference as an integer, and the no-borrow flag written last. -/
theorem subtractWritesDifferenceAndNoBorrow : Obligations.SubtractWritesDifferenceAndNoBorrow := by
  intro x y s
  refine ⟨decode_of_eq_encode (wordXY_eq_encodeXY 8 5 x y), decode_of_eq_encode (wordXY_eq_encodeXY 8 7 x y),
    ⟨_, rfl, rfl, registersKept_setResultFlag, ?subFlag, fun hx => ?sub⟩,
    ⟨_, rfl, rfl, registersKept_setResultFlag, ?subnFlag, fun hx => ?subn⟩⟩
  case subFlag | subnFlag =>
    rw [advance_v, setResultFlag_getElem_flag]
    exact noBorrowFlag_toNat _ _
  case sub | subn =>
    rw [advance_v, setResultFlag_getElem_result hx]
    exact byte_sub_toNat _ _

/-- Settles O41: half and double of the source as numbers, and the bit shifted out written last. -/
theorem shiftsWriteResultAndBitOut : Obligations.ShiftsWriteResultAndBitOut := by
  intro x y s src
  refine ⟨decode_of_eq_encode (wordXY_eq_encodeXY 8 6 x y), decode_of_eq_encode (wordXY_eq_encodeXY 8 0xE x y),
    fun hsrc => ?_⟩
  obtain rfl : src = shiftSource x y s := hsrc.trans (shiftSource_eq x y s).symm
  refine ⟨⟨_, rfl, rfl, registersKept_setResultFlag, ?shrFlag, fun hx => ?shr⟩,
    ⟨_, rfl, rfl, registersKept_setResultFlag, ?shlFlag, fun hx => ?shl⟩⟩
  case shrFlag => rw [advance_v, setResultFlag_getElem_flag, lowBitFlag_toNat]
  case shr => rw [advance_v, setResultFlag_getElem_result hx, BitVec.toNat_ushiftRight, Nat.shiftRight_one]
  case shlFlag => rw [advance_v, setResultFlag_getElem_flag, highBitFlag_toNat]
  case shl => rw [advance_v, setResultFlag_getElem_result hx, BitVec.toNat_shiftLeft, Nat.shiftLeft_eq, Nat.mul_comm]

/-- Settles O39: the sum as a number, and the carry written last. -/
theorem addWritesSumAndCarry : Obligations.AddWritesSumAndCarry := by
  intro x y s
  refine ⟨decode_of_eq_encode (wordXY_eq_encodeXY 8 4 x y), _, rfl, rfl, registersKept_setResultFlag, ?carry,
    fun hx => ?sum⟩
  case carry =>
    rw [advance_v, setResultFlag_getElem_flag]
    exact carryFlag_toNat _ _
  case sum =>
    rw [advance_v, setResultFlag_getElem_result hx]
    exact BitVec.toNat_add _ _

/-! ## Loads, the move and the random byte -/

/-- Settles O36: one register is written, with the byte or with the sum modulo 256. -/
theorem immediateLoadAndAdd : Obligations.ImmediateLoadAndAdd := by
  intro x nn s
  refine ⟨decode_of_eq_encode (wordXNN_eq_encodeXNN 6 x nn), decode_of_eq_encode (wordXNN_eq_encodeXNN 7 x nn),
    ⟨_, rfl, rfl, registersKept_setV, setV_getElem_same x nn s⟩, ⟨_, rfl, rfl, registersKept_setV, ?sum⟩⟩
  case sum =>
    rw [advance_v, setV_getElem_same]
    exact BitVec.toNat_add _ _

/-- Settles O37: one register is written, with what the other holds. -/
theorem moveCopiesARegister : Obligations.MoveCopiesARegister := fun x y s =>
  ⟨decode_of_eq_encode (wordXY_eq_encodeXY 8 0 x y), _, rfl, rfl, registersKept_setV, setV_getElem_same x s.v[y] s⟩

/-- Settles O42: one register is written, with the conjunction of the random byte and the mask. -/
theorem randomByteIsMasked : Obligations.RandomByteIsMasked := by
  intro x nn s
  refine ⟨decode_of_eq_encode (wordXNN_eq_encodeXNN 0xC x nn), _, rfl, rfl, registersKept_setV, fun b _ => ?_⟩
  rw [advance_v, setV_getElem_same, BitVec.getLsbD_and]

end Sys2Proof.Claims
end

section
/-! SUPPORT and PROOFS, family 43_index_memory.md. The new index values and the BCD digits as numbers, the effect of a
block transfer as one state, and each bounds-checked instruction as an equation per outcome of its check. -/

namespace Sys2Proof.Machine

/-! ## Index values and digits as numbers -/

/-- A byte extended to a word keeps its value (R8). -/
theorem zextByte_toNat (b : Byte) : (zextByte b).toNat = b.toNat := by
  have hlt := b.isLt
  rw [zextByte, BitVec.toNat_setWidth]
  omega

/-- The glyph address as a number: five bytes for each value of the low nibble (R162, the spec's decision D10). -/
theorem glyphAddr_toNat (b : Byte) : (glyphAddr b).toNat = 5 * (b.toNat % 16) := by
  have hnibble : (b &&& 0x0F).toNat = b.toNat % 16 := by
    rw [BitVec.toNat_and]
    exact Nat.and_two_pow_sub_one_eq_mod b.toNat 4
  rw [glyphAddr, BitVec.toNat_mul, zextByte_toNat, hnibble, show (5 : Word).toNat = 5 from rfl]
  omega

/-- The digits that `FX33` stores, as numbers (R163). -/
theorem bcdDigits_map_toNat (b : Byte) :
    (bcdDigits b).map BitVec.toNat = [b.toNat / 100, b.toNat / 10 % 10, b.toNat % 10] := by
  have hlt := b.isLt
  simp only [bcdDigits, List.map_cons, List.map_nil, BitVec.toNat_ofNat, List.cons.injEq, and_true]
  omega

/-- The three digits in a canonical memory, as numbers (R163). -/
theorem read_writeBytes_bcdDigits {m : Memory} {a : Nat} (b : Byte) (hfit : a + 3 ≤ memSize) (hwf : m.wf = true) :
    ((m.writeBytes a (bcdDigits b)).read a).toNat = b.toNat / 100 ∧
      ((m.writeBytes a (bcdDigits b)).read (a + 1)).toNat = b.toNat / 10 % 10 ∧
      ((m.writeBytes a (bcdDigits b)).read (a + 2)).toNat = b.toNat % 10 := by
  have hread (k : Nat) (hk : k < 3) : ((m.writeBytes a (bcdDigits b)).read (a + k)).toNat =
      [b.toNat / 100, b.toNat / 10 % 10, b.toNat % 10][k] := by
    rw [read_writeBytes (bs := bcdDigits b) hfit hwf hk]
    exact (List.getElem_map BitVec.toNat).symm.trans (List.getElem_of_eq (bcdDigits_map_toNat b) hk)
  exact ⟨hread 0 (by decide), hread 1 (by decide), hread 2 (by decide)⟩

/-! ## Block transfers -/

/-- The end of a block transfer: of what it left, only `I`, the pc and the outcome change (R164, R165). -/
theorem advance_advanceI (n : Nat) (s : State) :
    advance .seq (advanceI n s) =
      { s with i := (advanceI n s).i, pc := s.pc + 2, outcome := some .completed } := by
  unfold advanceI
  cases s.params.ldstI <;> rfl

/-- A canonical memory reads back the registers that `FX55` stored (R164). -/
theorem read_writeBytes_regBytes {x k : RegIx} {a : Nat} {s : State} (hfit : a + x.val + 1 ≤ memSize)
    (hwf : s.mem.wf = true) (hk : k ≤ x) : (s.mem.writeBytes a (regBytes x s)).read (a + k.val) = s.v[k] := by
  have hlen := regBytes_length x s
  have hlt : k.val < (regBytes x s).length := hlen ▸ Nat.lt_succ_of_le hk
  rw [read_writeBytes (by omega) hwf hlt]
  exact regBytes_getElem hlt k.isLt

/-- The registers after `FX65`: memory up to `x`, the old ones above (R165). -/
theorem loadRegs_getElem_regIx (m : Memory) (base : Nat) (v : Registers) (x k : RegIx) :
    (loadRegs m base (x.val + 1) v)[k] = if k ≤ x then m.read (base + k.val) else v[k] := by
  simp only [Fin.getElem_fin, loadRegs_getElem k.isLt, Nat.lt_succ_iff, Fin.le_def]

end Sys2Proof.Machine

namespace Sys2Proof.Claims

open Sys2Proof Sys2Proof.Machine

/-! ## The bounds-checked instructions, by their check -/

/-- The check of an access of at least one byte passes exactly when its bytes all exist (R53). -/
theorem inRange_iff_accessFits {s : State} {n : Nat} : inRange s.i (n + 1) = true ↔ accessFits s (n + 1) :=
  inRange_iff.trans (or_iff_right n.succ_ne_zero)

/-- `FX33` with room for its digits (R163). -/
theorem exec_ldBVx_of_fits {x : RegIx} {s : State} (h : accessFits s 3) :
    exec (.ldBVx x) s = .next (advance .seq (setMem (s.mem.writeBytes s.i.toNat (bcdDigits s.v[x])) s)) :=
  congrArg Host.Outcome.next (if_pos (inRange_iff_accessFits.2 h))

/-- `FX33` past the end of memory (R163, R235). -/
theorem exec_ldBVx_of_not_fits {x : RegIx} {s : State} (h : ¬ accessFits s 3) :
    exec (.ldBVx x) s = .next (withFault .capacityFault (some (encode (.ldBVx x))) s) :=
  congrArg Host.Outcome.next (if_neg (mt inRange_iff_accessFits.1 h))

/-- `FX55` with room for its registers (R164). -/
theorem exec_ldMemVx_of_fits {x : RegIx} {s : State} (h : accessFits s (x.val + 1)) :
    exec (.ldMemVx x) s = .next (advance .seq
      (advanceI (x.val + 1) (setMem (s.mem.writeBytes s.i.toNat (regBytes x s)) s))) :=
  congrArg Host.Outcome.next (if_pos (inRange_iff_accessFits.2 h))

/-- `FX55` past the end of memory (R164, R235). -/
theorem exec_ldMemVx_of_not_fits {x : RegIx} {s : State} (h : ¬ accessFits s (x.val + 1)) :
    exec (.ldMemVx x) s = .next (withFault .capacityFault (some (encode (.ldMemVx x))) s) :=
  congrArg Host.Outcome.next (if_neg (mt inRange_iff_accessFits.1 h))

/-- `FX65` inside memory (R165). -/
theorem exec_ldVxMem_of_fits {x : RegIx} {s : State} (h : accessFits s (x.val + 1)) :
    exec (.ldVxMem x) s = .next (advance .seq
      (advanceI (x.val + 1) (setRegs (loadRegs s.mem s.i.toNat (x.val + 1) s.v) s))) :=
  congrArg Host.Outcome.next (if_pos (inRange_iff_accessFits.2 h))

/-- `FX65` past the end of memory (R165, R235). -/
theorem exec_ldVxMem_of_not_fits {x : RegIx} {s : State} (h : ¬ accessFits s (x.val + 1)) :
    exec (.ldVxMem x) s = .next (withFault .capacityFault (some (encode (.ldVxMem x))) s) :=
  congrArg Host.Outcome.next (if_neg (mt inRange_iff_accessFits.1 h))

/-! ## BCD and block transfers -/

/-- Settles O45: with room the digits are the bytes written and read back, and nothing outside them changes;
without room the fault is the whole effect. -/
theorem bcdStoresThreeDigits : Obligations.BcdStoresThreeDigits := by
  intro x s
  have hword : wordXNN 0xF000 x 0x33 = encode (.ldBVx x) := wordXNN_eq_encodeXNN 0xF x 0x33
  refine ⟨decode_of_eq_encode hword, fun hfit => ?stored, fun hfit => ?fault⟩
  case stored =>
    exact ⟨_, exec_ldBVx_of_fits hfit, rfl, read_writeBytes_bcdDigits s.v[x] hfit,
      fun _ hout => read_writeBytes_outside hout⟩
  case fault =>
    rw [hword]
    exact exec_ldBVx_of_not_fits hfit

/-- Settles O46: with room the registers are the bytes written and read back, nothing outside them changes, and `I` is
what the block transfer leaves; without room the fault is the whole effect. -/
theorem storeRegistersFillsMemory : Obligations.StoreRegistersFillsMemory := by
  intro x s
  have hword : wordXNN 0xF000 x 0x55 = encode (.ldMemVx x) := wordXNN_eq_encodeXNN 0xF x 0x55
  refine ⟨decode_of_eq_encode hword, fun hfit => ?stored, fun hfit => ?fault⟩
  case stored =>
    refine ⟨_, exec_ldMemVx_of_fits hfit, ?frame, advanceI_i_toNat _ (setMem _ s), ?bytes⟩
    case frame =>
      rw [advance_advanceI]
      rfl
    case bytes =>
      rw [advance_mem, advanceI_mem, setMem_mem]
      refine ⟨fun hwf k hk => read_writeBytes_regBytes hfit hwf hk, fun a hout => read_writeBytes_outside ?_⟩
      rwa [regBytes_length]
  case fault =>
    rw [hword]
    exact exec_ldMemVx_of_not_fits hfit

/-- Settles O47: inside memory the registers up to `x` are the bytes read, and `I` is what the block transfer leaves;
past its end the fault is the whole effect. -/
theorem loadRegistersReadsMemory : Obligations.LoadRegistersReadsMemory := by
  intro x s
  have hword : wordXNN 0xF000 x 0x65 = encode (.ldVxMem x) := wordXNN_eq_encodeXNN 0xF x 0x65
  refine ⟨decode_of_eq_encode hword, fun hfit => ?loaded, fun hfit => ?fault⟩
  case loaded =>
    refine ⟨_, exec_ldVxMem_of_fits hfit, ?frame, advanceI_i_toNat _ (setRegs _ s), fun k => ?registers⟩
    case frame =>
      rw [advance_advanceI]
      rfl
    case registers =>
      rw [advance_v, advanceI_v, setRegs_v]
      exact loadRegs_getElem_regIx s.mem s.i.toNat s.v x k
  case fault =>
    rw [hword]
    exact exec_ldVxMem_of_not_fits hfit

/-! ## The index register -/

/-- Settles O43: the address as a number; the write of `I` is the whole effect. -/
theorem setIndexLoadsTheAddress : Obligations.SetIndexLoadsTheAddress := fun nnn _ =>
  ⟨decode_of_eq_encode (wordNNN_eq_encodeNNN 0xA nnn), _, rfl, zextAddr_toNat nnn, rfl⟩

/-- Settles O44: the sum modulo 0x10000 and the glyph address as numbers; the write of `I` is the whole effect. -/
theorem indexArithmetic : Obligations.IndexArithmetic := by
  intro x s
  refine ⟨decode_of_eq_encode (wordXNN_eq_encodeXNN 0xF x 0x1E),
    decode_of_eq_encode (wordXNN_eq_encodeXNN 0xF x 0x29), ⟨_, rfl, ?sum, rfl⟩, ⟨_, rfl, glyphAddr_toNat s.v[x], rfl⟩⟩
  case sum =>
    rw [advance_i, setI_i, BitVec.toNat_add, zextByte_toNat]
    rfl

end Sys2Proof.Claims
end

section
/-! SUPPORT and PROOFS, family 44_timers_input.md. The timers after the decrement and after every instruction, and the
key instructions as an equation per outcome of their test. -/

namespace Sys2Proof.Machine

/-! ## Timers -/

/-- A timer counted down, as a number: the subtraction of naturals stops at 0 (R186). -/
theorem countDown_toNat (b : Byte) : (countDown b).toNat = b.toNat - 1 := by
  unfold countDown
  split
  next hzero =>
    subst hzero
    rfl
  next hne => bv_omega

/-- What an instruction does to the timers: `DT` is left alone by all but `FX15`, `ST` by all but `FX18` (R181,
R182). -/
theorem exec_keeps_timers {i : Instr} {s t : State} (h : exec i s = .next t) :
    ((∀ x, i ≠ .ldDtVx x) → t.dt = s.dt) ∧ ((∀ x, i ≠ .ldStVx x) → t.st = s.st) := by
  cases i
  case ldDtVx x =>
    cases h
    exact ⟨fun hne => absurd rfl (hne x), fun _ => rfl⟩
  case ldStVx x =>
    cases h
    exact ⟨fun _ => rfl, fun hne => absurd rfl (hne x)⟩
  case ret =>
    cases h
    by_cases hsp : 0 < s.sp.val
    · simp [pop_of_pos hsp]
    · simp [pop_empty (show s.sp.val = 0 by omega)]
  case call =>
    cases h
    by_cases hsp : s.sp.val < 16
    · simp [push_of_lt hsp]
    · simp [push_full (show s.sp.val = 16 by omega)]
  case drw | ldBVx | ldMemVx | ldVxMem | skp | sknp | ldVxK =>
    cases h
    split <;> simp
  case orReg | andReg | xorReg =>
    cases h
    simp
  all_goals
    cases h
    exact ⟨fun _ => rfl, fun _ => rfl⟩

/-- The inversion of `step` by the instruction at the pc: none, and a fault over the decrement is the whole step, or
one, executed over the decrement (R103). -/
theorem step_cases_instrAt {s t : State} (h : step s = .next t) :
    (instrAt s = none ∧ ∃ kind op, t = endStep (raise kind op (tickTimers s))) ∨
      ∃ i u, instrAt s = some i ∧ exec i (tickTimers s) = .next u ∧ t = endStep u := by
  obtain ⟨-, hstep⟩ := step_cases h
  cases hstep with
  | fetchFault hpc ht => exact .inl ⟨instrAt_of_gt hpc, _, _, ht⟩
  | decodeFault op e hop he ht => exact .inl ⟨instrAt_of_decode_error hop he, _, _, ht⟩
  | ran op i u hop hi hu hr ht => exact .inr ⟨i, u, instrAt_of_decode hop hi, hu, ht⟩

/-! ## Keys -/

/-- `EX9E` on a button (R183). -/
theorem execSkp_of_le {x : RegIx} {s : State} (h : s.v[x].toNat ≤ 15) :
    execSkp x s = .next (advance (.skip (buttonDown s.v[x].toNat s)) s) := by
  rw [execSkp, getV, buttonIndex_of_le h]

/-- `EX9E` above 15 (R236). -/
theorem execSkp_of_gt {x : RegIx} {s : State} (h : 15 < s.v[x].toNat) :
    execSkp x s = .next (raiseAt (.skp x) .invalidButtonIndex s) := by
  rw [execSkp, getV, buttonIndex_of_gt h]

/-- `EXA1` on a button (R184). -/
theorem execSknp_of_le {x : RegIx} {s : State} (h : s.v[x].toNat ≤ 15) :
    execSknp x s = .next (advance (.skip (!buttonDown s.v[x].toNat s)) s) := by
  rw [execSknp, getV, buttonIndex_of_le h]

/-- `EXA1` above 15 (R236). -/
theorem execSknp_of_gt {x : RegIx} {s : State} (h : 15 < s.v[x].toNat) :
    execSknp x s = .next (raiseAt (.sknp x) .invalidButtonIndex s) := by
  rw [execSknp, getV, buttonIndex_of_gt h]

/-- A button is newly pressed when it is down now and was up in the step before (R185). -/
theorem newPresses_getLsbD {s : State} {k : Nat} (hk : k < 16) :
    (newPresses s).getLsbD k = ((currentInput s).keys.getLsbD k && !s.prevKeys.getLsbD k) := by
  simp [newPresses, hk]

/-- `FX0A` with no new press (R185). -/
theorem execLdVxK_of_none {x : RegIx} {s : State} (h : leastBit (newPresses s) = none) :
    execLdVxK x s = .next (advance .stay s) := by
  rw [execLdVxK, h]

/-- `FX0A` with `k` the least new press (R185). -/
theorem execLdVxK_of_some {x : RegIx} {s : State} {k : Nat} (h : leastBit (newPresses s) = some k) :
    execLdVxK x s = .next (advance .seq (setV x (BitVec.ofNat 8 k) s)) := by
  rw [execLdVxK, h]

end Sys2Proof.Machine

namespace Sys2Proof.Claims

open Sys2Proof Sys2Proof.Machine

/-! ## The timers of a step -/

/-- A timer after the decrement of a step, as the statements' number (R186). -/
theorem tick_toNat (tick : Bool) (b : Byte) :
    (if tick then countDown b else b).toNat = b.toNat - bit (tick = true) := by
  cases tick
  · rfl
  · exact countDown_toNat b

/-- Settles O14: a step with no instruction is a fault over the decrement, and the instruction of any other step
keeps what the decrement left of each timer, or writes it. -/
theorem timersCountDownOncePerTick : Obligations.TimersCountDownOncePerTick := by
  intro s t hstep
  obtain ⟨hnone, kind, op, rfl⟩ | ⟨i, u, hi, hu, rfl⟩ := step_cases_instrAt hstep
  · rw [hnone]
    exact ⟨fun _ => tick_toNat _ s.dt, fun _ => tick_toNat _ s.st, nofun, nofun⟩
  · obtain ⟨hdt, hst⟩ := exec_keeps_timers hu
    simp only [hi, ne_eq, Option.some.injEq]
    refine ⟨fun hne => ?dtKept, fun hne => ?stKept, ?dtSet, ?stSet⟩
    case dtKept =>
      rw [endStep_dt, hdt hne]
      exact tick_toNat _ s.dt
    case stKept =>
      rw [endStep_st, hst hne]
      exact tick_toNat _ s.st
    case dtSet | stSet =>
      rintro x rfl
      cases hu
      rfl

/-! ## The instructions -/

/-- Settles O51: the skips by their equations on a button and above 15. -/
theorem keySkipsTestTheButton : Obligations.KeySkipsTestTheButton := by
  intro x s
  have hskp : wordXNN 0xE000 x 0x9E = encode (.skp x) := wordXNN_eq_encodeXNN 0xE x 0x9E
  have hsknp : wordXNN 0xE000 x 0xA1 = encode (.sknp x) := wordXNN_eq_encodeXNN 0xE x 0xA1
  refine ⟨decode_of_eq_encode hskp, decode_of_eq_encode hsknp, fun hle => ?button, fun hgt => ?fault⟩
  case button =>
    rw [← advance_skip s Iff.rfl, ← advance_skip_unless s (iff_of_eq (Bool.not_eq_false' _))]
    exact ⟨execSkp_of_le hle, execSknp_of_le hle⟩
  case fault =>
    rw [hskp, hsknp]
    exact ⟨execSkp_of_gt hgt, execSknp_of_gt hgt⟩

/-- Settles O52: the least new press is the least bit of `newPresses`, and `FX0A` waits when there is none. -/
theorem waitForKeyTakesTheLeastNewPress : Obligations.WaitForKeyTakesTheLeastNewPress := by
  intro x s
  refine ⟨decode_of_eq_encode (wordXNN_eq_encodeXNN 0xF x 0x0A), fun hnone => ?waits, fun k hk hdown hleast => ?taken⟩
  case waits =>
    exact execLdVxK_of_none (leastBit_eq_none.2 fun k hk => (newPresses_getLsbD hk).trans (hnone k hk))
  case taken =>
    have hbit : leastBit (newPresses s) = some k := leastBit_eq_some.2
      ⟨hk, (newPresses_getLsbD hk).trans hdown, fun j hj => (newPresses_getLsbD (hj.trans hk)).trans (hleast j hj)⟩
    refine ⟨_, execLdVxK_of_some hbit, rfl, registersKept_setV, ?_⟩
    rw [advance_v, setV_getElem_same, BitVec.toNat_ofNat]
    omega

/-- Settles O50: one register takes `DT`; a timer takes one register. -/
theorem timerInstructionsMoveBytes : Obligations.TimerInstructionsMoveBytes := fun x s =>
  ⟨decode_of_eq_encode (wordXNN_eq_encodeXNN 0xF x 0x07), decode_of_eq_encode (wordXNN_eq_encodeXNN 0xF x 0x15),
    decode_of_eq_encode (wordXNN_eq_encodeXNN 0xF x 0x18),
    ⟨_, rfl, rfl, registersKept_setV, setV_getElem_same x s.dt s⟩, rfl, rfl⟩

end Sys2Proof.Claims
end

section
/-! SUPPORT and PROOFS, family 45_display.md. The law of a sprite in the words of the statements, and `DXYN` as an
equation per outcome of its check. -/

namespace Sys2Proof.Machine

/-- No pixel of the cleared framebuffer is set. -/
theorem pixel_replicate_zero (col row : Nat) : pixel (Vector.replicate 256 0) col row = false := by
  unfold pixel
  split
  · simp
  · rfl

/-- A condition written to `VF` as a flag byte: 1 exactly when it holds, else 0 (R203). -/
theorem setV_flagByte_exact {b : Bool} {p : Prop} (h : b = true ↔ p) (s : State) :
    (p → (setV regVF (flagByte b) s).v[(15 : Fin 16)] = 1) ∧
      (¬ p → (setV regVF (flagByte b) s).v[(15 : Fin 16)] = 0) :=
  ⟨fun hp => (setV_getElem_same regVF _ s).trans (if_pos (h.2 hp)),
    fun hp => (setV_getElem_same regVF _ s).trans (if_neg (mt h.1 hp))⟩

end Sys2Proof.Machine

namespace Sys2Proof.Claims

open Sys2Proof Sys2Proof.Machine

/-! ## The word and the check of a draw -/

/-- The statement's word of format `XYN` is the encoding (R71). -/
theorem wordXYN_eq_encodeXY (c n : Nibble) (x y : RegIx) :
    BitVec.ofNat 16 (4096 * c.toNat + 256 * x.val + 16 * y.val + n.toNat) = encodeXY c x y n := by
  rw [← Laws.encodeXY_toNat, BitVec.ofNat_toNat, BitVec.setWidth_eq]

/-- `DXYN` with its rows in memory, or with no rows (R201, D19). -/
theorem exec_drw_of_fits {x y : RegIx} {n : Nibble} {s : State} (h : n.toNat = 0 ∨ accessFits s n.toNat) :
    exec (.drw x y n) s = .next (advance .seq
      (setV regVF (flagByte (drawSprite x y n s).coll) (setFb (drawSprite x y n s).fb s))) :=
  congrArg Host.Outcome.next (if_pos (inRange_iff.2 h))

/-- `DXYN` with rows past the end of memory (R201, R235). -/
theorem exec_drw_of_not_fits {x y : RegIx} {n : Nibble} {s : State} (h0 : n.toNat ≠ 0)
    (h : ¬ accessFits s n.toNat) :
    exec (.drw x y n) s = .next (withFault .capacityFault (some (encode (.drw x y n))) s) :=
  congrArg Host.Outcome.next (if_neg fun hin => (inRange_iff.1 hin).elim h0 h)

/-! ## What a sprite does -/

/-- The pixels that the statements call covered are the ones of the sprite's law. -/
theorem covered_iff_spriteCovers {x y : RegIx} {n : Nibble} {s : State} {col row : Nat} :
    covered x y n s col row ↔
      spriteCovers s.mem s.i.toNat (getV x s).toNat (getV y s).toNat n.toNat col row := by
  constructor
  · rintro ⟨r, hr, c, hc, hbit, hcol, hrow⟩
    exact ⟨r, hr, hrow, c, hc, hbit, hcol⟩
  · rintro ⟨r, hr, hrow, c, hc, hbit, hcol⟩
    exact ⟨r, hr, c, hc, hbit, hcol, hrow⟩

/-- Only memory, `I` and the two coordinates decide which pixels are covered. -/
theorem covered_congr {x y : RegIx} {n : Nibble} {s u : State} (hmem : u.mem = s.mem) (hi : u.i = s.i)
    (hx : u.v[x] = s.v[x]) (hy : u.v[y] = s.v[y]) : covered x y n u = covered x y n s := by
  unfold covered
  rw [hmem, hi, hx, hy]

/-- The law of the whole sprite (R201 to R204). -/
theorem drawSprite_law (x y : RegIx) (n : Nibble) (s : State) :
    SpriteLaw s.mem s.i.toNat (getV x s).toNat (getV y s).toNat n.toNat ⟨s.fb, false⟩ (drawSprite x y n s) :=
  drawRows_law (Nat.le_of_lt_succ n.isLt)

section
variable {x y : RegIx} {n : Nibble} {s : State} {col row : Nat}

/-- A covered pixel is toggled (R201). -/
theorem pixel_drawSprite_of_covered (hc : col < 64) (hr : row < 32) (h : covered x y n s col row) :
    pixel (drawSprite x y n s).fb col row = !pixel s.fb col row :=
  (drawSprite_law x y n s).flipped col hc row hr (covered_iff_spriteCovers.1 h)

/-- A pixel that is not covered is left alone (R201). -/
theorem pixel_drawSprite_of_not_covered (hc : col < 64) (hr : row < 32) (h : ¬ covered x y n s col row) :
    pixel (drawSprite x y n s).fb col row = pixel s.fb col row :=
  (drawSprite_law x y n s).kept col hc row hr (mt covered_iff_spriteCovers.2 h)

/-- A collision is a covered pixel that was set (R203). -/
theorem drawSprite_coll_iff : (drawSprite x y n s).coll = true ↔
    ∃ col < 64, ∃ row < 32, covered x y n s col row ∧ pixel s.fb col row = true := by
  simp only [(drawSprite_law x y n s).coll, covered_iff_spriteCovers, Bool.false_eq_true, false_or]

end

/-! ## A second draw -/

section
variable {x y : RegIx} {n : Nibble} {s u : State} (hfb : u.fb = (drawSprite x y n s).fb)
  (hcov : covered x y n u = covered x y n s)
include hfb hcov

/-- The same pixels toggled twice are the framebuffer before (R207). -/
theorem drawSprite_fb_restored : (drawSprite x y n u).fb = s.fb := by
  refine frameBuffer_ext fun col hc row hr => ?_
  by_cases h : covered x y n s col row
  · rw [pixel_drawSprite_of_covered hc hr (hcov ▸ h), hfb, pixel_drawSprite_of_covered hc hr h, Bool.not_not]
  · rw [pixel_drawSprite_of_not_covered hc hr (hcov ▸ h), hfb, pixel_drawSprite_of_not_covered hc hr h]

/-- The second draw collides where the first one set a pixel (R208). -/
theorem drawSprite_again_coll_iff : (drawSprite x y n u).coll = true ↔
    ∃ col < 64, ∃ row < 32, covered x y n s col row ∧ pixel s.fb col row = false := by
  have hpixel {col row : Nat} (hc : col < 64) (hr : row < 32) (h : covered x y n s col row) :
      pixel u.fb col row = true ↔ pixel s.fb col row = false := by
    rw [hfb, pixel_drawSprite_of_covered hc hr h, Bool.not_eq_true']
  rw [drawSprite_coll_iff, hcov]
  constructor
  · rintro ⟨col, hc, row, hr, h, hp⟩
    exact ⟨col, hc, row, hr, h, (hpixel hc hr h).1 hp⟩
  · rintro ⟨col, hc, row, hr, h, hp⟩
    exact ⟨col, hc, row, hr, h, (hpixel hc hr h).2 hp⟩

end

/-! ## The instructions -/

/-- Settles O58: with the rows in memory the pixels and the flag are those of the sprite's law, and the flag is the
only register written; without them the fault is the whole effect. -/
theorem drawXorsTheSpriteAndReportsCollision : Obligations.DrawXorsTheSpriteAndReportsCollision := by
  intro x y n s
  have hword : BitVec.ofNat 16 (0xD000 + 256 * x.val + 16 * y.val + n.toNat) = encode (.drw x y n) :=
    wordXYN_eq_encodeXY 0xD n x y
  refine ⟨decode_of_eq_encode hword, fun hfit => ?drawn, fun h0 hfit => ?fault⟩
  case drawn =>
    refine ⟨_, exec_drw_of_fits hfit, rfl, registersKept_setV,
      fun _ hc _ hr => pixel_drawSprite_of_covered hc hr, fun _ hc _ hr => pixel_drawSprite_of_not_covered hc hr,
      setV_flagByte_exact drawSprite_coll_iff _⟩
  case fault =>
    rw [hword]
    exact exec_drw_of_not_fits h0 hfit

/-- Settles O59: the second draw covers the same pixels, so it toggles each back, and it collides where the first one
set a pixel. -/
theorem doubleDrawRestoresTheFramebuffer : Obligations.DoubleDrawRestoresTheFramebuffer := by
  intro x y n s hfit
  refine ⟨_, exec_drw_of_fits hfit, fun u hfb hmem hi hx hy => ?_⟩
  have hcov : covered x y n u = covered x y n s := covered_congr hmem hi hx hy
  have hfit' : n.toNat = 0 ∨ accessFits u n.toNat := by rwa [accessFits, hi]
  exact ⟨_, exec_drw_of_fits hfit', drawSprite_fb_restored hfb hcov,
    setV_flagByte_exact (drawSprite_again_coll_iff hfb hcov) _⟩

/-- Settles O57: the framebuffer written is all zeros, so no pixel is set. -/
theorem clearScreenClearsEveryPixel : Obligations.ClearScreenClearsEveryPixel := by
  refine ⟨decode_of_eq_encode rfl, fun s => ⟨_, rfl, rfl, fun b => ?bytes, fun col _ row _ => ?pixels⟩⟩
  case bytes => exact Vector.getElem_replicate b.isLt
  case pixels => exact pixel_replicate_zero col row

end Sys2Proof.Claims
end

section
/-! SUPPORT and PROOFS, family 60_exceptions.md. The outcome that every instruction leaves, by its own check of R230 and
by the wait, and the fault due by what the fetch and the decoder answer. -/

namespace Sys2Proof.Machine

/-- A step of an unfaulted machine with an instruction at the pc runs it over the timer decrement (R103). -/
theorem step_of_instrAt {s : State} {i : Instr} (hs : s.faulted = false) (hi : instrAt s = some i) :
    ∃ u, exec i (tickTimers s) = .next u ∧ step s = .next (endStep u) := by
  obtain ⟨t, hstep, -⟩ := step_of_not_faulted hs
  obtain ⟨hnone, -⟩ | ⟨j, u, hj, hu, rfl⟩ := step_cases_instrAt hstep
  · rw [hi] at hnone
    cases hnone
  · obtain rfl : j = i := Option.some.inj (hj.symm.trans hi)
    exact ⟨u, hu, hstep⟩

/-- The end of a step that took no fault records the bitmask (R108). -/
theorem endStep_of_not_faulted {s : State} (h : s.faulted = false) :
    endStep s = takeInput { s with prevKeys := (currentInput s).keys } := by
  simp only [endStep, recordKeys, h]
  rfl

/-- An outcome of a next-pc class is no fault (R101). -/
theorem outcomeIsFault_of_outcomeOf {s : State} {k : NextPc} (h : s.outcome = some (outcomeOf k)) :
    outcomeIsFault s = false := by
  rw [outcomeIsFault, h]
  cases k <;> rfl

end Sys2Proof.Machine

namespace Sys2Proof.Claims

open Sys2Proof Sys2Proof.Machine

/-! ## The fault due -/

/-- A pc past 0xFFE makes the fetch fault (R51, R230). -/
theorem faultDue_of_gt {s : State} (h : 0xFFE < s.pc.toNat) : faultDue s = some .capacityFault := if_pos h

/-- The word that the fetch answers is the one at the pc (R51). -/
theorem wordAt_of_fetch {s : State} {op : Word} (h : s.mem.fetch s.pc = some op) : wordAt s = op :=
  Option.some.inj ((fetch_eq_wordAt (pc_le_of_fetch h)).symm.trans h)

/-- A word that is no instruction makes the decoder fault (R232). -/
theorem faultDue_of_decode_error {s : State} {op : Word} {e : DecodeError} (hop : s.mem.fetch s.pc = some op)
    (he : decode op = .error e) : faultDue s = some .decodeFault := by
  rw [faultDue, if_neg (Nat.not_lt.2 (pc_le_of_fetch hop)), wordAt_of_fetch hop, he]

/-- Past the fetch and the decoder, the fault due is that of the instruction's own check (R239). -/
theorem faultDue_of_decode {s : State} {op : Word} {i : Instr} (hop : s.mem.fetch s.pc = some op)
    (hi : decode op = .ok i) : faultDue s = instrFault s i := by
  rw [faultDue, if_neg (Nat.not_lt.2 (pc_le_of_fetch hop)), wordAt_of_fetch hop, hi]

/-- The timer decrement is not seen by an instruction's check. -/
theorem instrFault_tickTimers (i : Instr) (s : State) : instrFault (tickTimers s) i = instrFault s i := rfl

/-! ## The outcome of an instruction -/

/-- The outcome of an instruction whose check passes: `FX0A` with no new press waits, all else completes (R101,
R185). -/
def unfaultedOutcome (i : Instr) (s : State) : CycleOutcome :=
  match i with
  | .ldVxK _ => if newPresses s = 0 then .haltedAwaitingInput else .completed
  | _ => .completed

/-- The outcome of an instruction: the fault of its own check, which carries its word and the pc, else the outcome it
has without one (R101, R230). -/
def outcomeDue (i : Instr) (s : State) : CycleOutcome :=
  match instrFault s i with
  | some kind => .fault kind (some (encode i)) s.pc
  | none => unfaultedOutcome i s

section
variable {i : Instr} {s t : State} {kind : FaultKind}

/-- The outcome of an instruction whose check fails. -/
theorem outcomeDue_of_some (h : instrFault s i = some kind) :
    outcomeDue i s = .fault kind (some (encode i)) s.pc := by
  rw [outcomeDue, h]

/-- The outcome of an instruction whose check passes. -/
theorem outcomeDue_of_none (h : instrFault s i = none) : outcomeDue i s = unfaultedOutcome i s := by
  rw [outcomeDue, h]

/-- No instruction whose check passes reports a fault. -/
theorem unfaultedOutcome_ne_fault {op : Option Word} {a : Word} : unfaultedOutcome i s ≠ .fault kind op a := by
  unfold unfaultedOutcome
  split
  · split <;> nofun
  · nofun

/-- The check failed with the kind that the outcome reports. -/
theorem instrFault_of_outcomeDue_fault {op : Option Word} {a : Word} (h : outcomeDue i s = .fault kind op a) :
    instrFault s i = some kind := by
  rcases hcheck : instrFault s i with _ | kind'
  · rw [outcomeDue_of_none hcheck] at h
    exact absurd h unfaultedOutcome_ne_fault
  · rw [outcomeDue_of_some hcheck] at h
    cases h
    rfl

/-- The check passed where the outcome is that of a next-pc class. -/
theorem instrFault_of_outcomeDue_outcomeOf {k : NextPc} (h : outcomeDue i s = outcomeOf k) :
    instrFault s i = none := by
  rcases hcheck : instrFault s i with _ | kind
  · rfl
  · rw [outcomeDue_of_some hcheck] at h
    cases k <;> cases h

/-- Only `FX0A` waits (R185). -/
theorem ldVxK_of_outcomeDue_wait (h : outcomeDue i s = .haltedAwaitingInput) : ∃ x, i = .ldVxK x := by
  unfold outcomeDue at h
  split at h
  · cases h
  · unfold unfaultedOutcome at h
    split at h
    next x _ => exact ⟨x, rfl⟩
    next => cases h

/-- The outcome due is the fault that an instruction takes where its check fails. -/
theorem outcome_of_raiseAt (hcheck : instrFault s i = some kind) :
    (raiseAt i kind s).outcome = some (outcomeDue i s) :=
  congrArg some (outcomeDue_of_some hcheck).symm

/-- The outcome due is that of the next-pc class where the check passes. -/
theorem outcome_of_advance {k : NextPc} {u : State} (hcheck : instrFault s i = none)
    (hclass : unfaultedOutcome i s = outcomeOf k) : (advance k u).outcome = some (outcomeDue i s) := by
  rw [outcomeDue_of_none hcheck, hclass]
  rfl

/-- The outcome due of an instruction that completes where its access passes the range check, and faults elsewhere
(R53, R235). -/
theorem outcome_of_rangeCheck {u : State} {n : Nat} {p : Prop} [Decidable p]
    (hcheck : instrFault s i = if p then some kind else none) (hp : n = 0 ∨ s.i.toNat + n ≤ memSize ↔ ¬ p)
    (hdone : unfaultedOutcome i s = .completed) :
    (if inRange s.i n then advance .seq u else raiseAt i kind s).outcome = some (outcomeDue i s) := by
  have hrange := inRange_iff.trans hp
  by_cases hfault : p
  · rw [if_neg (mt hrange.1 (not_not.2 hfault))]
    exact outcome_of_raiseAt (hcheck.trans (if_pos hfault))
  · rw [if_pos (hrange.2 hfault)]
    exact outcome_of_advance (hcheck.trans (if_neg hfault)) hdone

/-- Every instruction leaves the outcome due. -/
theorem exec_outcome (h : exec i s = .next t) : t.outcome = some (outcomeDue i s) := by
  cases i
  case ret =>
    rcases Nat.eq_zero_or_pos s.sp.val with hempty | hpos
    · cases h.symm.trans (execRet_of_empty hempty)
      exact outcome_of_raiseAt (if_pos hempty)
    · cases h.symm.trans (execRet_of_sp_eq (k := ⟨s.sp.val - 1, by omega⟩) (Nat.sub_add_cancel hpos).symm)
      exact outcome_of_advance (if_neg hpos.ne') rfl
  case call nnn =>
    rcases Nat.lt_or_ge s.sp.val 16 with hlt | hge
    · cases h.symm.trans (execCall_of_sp_eq (k := ⟨s.sp.val, hlt⟩) rfl)
      exact outcome_of_advance (if_neg hlt.ne) rfl
    · have hfull : s.sp.val = 16 := by omega
      cases h.symm.trans (execCall_of_full hfull)
      exact outcome_of_raiseAt (if_pos hfull)
  case skp x | sknp x =>
    cases h
    rcases Nat.lt_or_ge 15 (getV x s).toNat with hgt | hle
    · rw [buttonIndex_of_gt hgt]
      exact outcome_of_raiseAt (if_pos hgt)
    · rw [buttonIndex_of_le hle]
      exact outcome_of_advance (if_neg (Nat.not_lt.2 hle)) rfl
  case ldVxK x =>
    obtain ⟨hnone, rfl⟩ | ⟨hsome, b, rfl⟩ := execLdVxK_cases h
    · exact outcome_of_advance rfl (if_pos hnone)
    · exact outcome_of_advance rfl (if_neg hsome)
  case drw | ldBVx | ldMemVx | ldVxMem =>
    cases h
    exact outcome_of_rangeCheck rfl (by simp only [memSize]; omega) rfl
  all_goals
    cases h
    exact outcome_of_advance rfl rfl

end

/-! ## The step -/

/-- Settles O8: the fetch answers the word at the pc and the decoder an error, so of the three kinds of step it is the
decode fault. -/
theorem undefinedWordIsADecodeFault : Obligations.UndefinedWordIsADecodeFault := by
  intro s hs hpc hundef
  obtain ⟨t, hstep, hkind⟩ := step_of_not_faulted hs
  cases hkind with
  | fetchFault hgt _ => exact absurd hgt (Nat.not_lt.2 hpc)
  | decodeFault op e hop _ ht => rw [hstep, ht, endStep_raise_tickTimers, wordAt_of_fetch hop]
  | ran op i u hop hi _ _ _ => exact absurd hi (wordAt_of_fetch hop ▸ hundef i)

/-- Settles O11: a step that stops at the fetch or the decoder has that fault due; one that ran its instruction left
the outcome due, which is a fault exactly where the instruction's check fails. -/
theorem stepFaultsExactlyOnItsCauses : Obligations.StepFaultsExactlyOnItsCauses := by
  intro s t hstep
  obtain ⟨hs, hkind⟩ := step_cases hstep
  cases hkind with
  | fetchFault hpc ht =>
    rw [faultDue_of_gt hpc, ht]
    exact ⟨rfl, ⟨none, rfl⟩, nofun⟩
  | decodeFault op e hop he ht =>
    rw [faultDue_of_decode_error hop he, ht]
    exact ⟨rfl, ⟨some op, rfl⟩, nofun⟩
  | ran op i u hop hi hu hr ht =>
    have hout := exec_outcome hu
    rw [faultDue_of_decode hop hi, ← instrFault_tickTimers, ht]
    cases hr with
    | fault kind hk hraise =>
      rw [hraise] at hout ⊢
      rw [instrFault_of_outcomeDue_fault (Option.some.inj hout).symm]
      exact ⟨rfl, ⟨_, rfl⟩, hk⟩
    | done k ho hf _ _ _ _ =>
      rw [instrFault_of_outcomeDue_outcomeOf (Option.some.inj (hout.symm.trans ho))]
      exact ⟨hf.trans hs, outcomeIsFault_of_outcomeOf ho⟩

/-- Settles O53: a step that waits completed an instruction whose outcome is the wait, so it ran `FX0A`; and `FX0A`
stays where it is while no button went down, and goes on in the step where one did. -/
theorem waitingStepKeepsAllOtherState : Obligations.WaitingStepKeepsAllOtherState := by
  refine ⟨fun s t hstep hout => ?onlyWait, fun x s hs hi => ?wait⟩
  case onlyWait =>
    obtain ⟨-, kind, op, rfl⟩ | ⟨i, u, hi, hu, rfl⟩ := step_cases_instrAt hstep
    · cases hout
    · obtain ⟨x, rfl⟩ := ldVxK_of_outcomeDue_wait (Option.some.inj ((exec_outcome hu).symm.trans hout))
      exact ⟨x, hi⟩
  case wait =>
    obtain ⟨u, hu, hstep⟩ := step_of_instrAt hs hi
    rw [hstep, ← currentInput_tickTimers]
    obtain ⟨hnone, rfl⟩ | ⟨hsome, b, rfl⟩ := execLdVxK_cases hu
    · have hend := endStep_of_not_faulted (s := advance .stay (tickTimers s)) hs
      exact ⟨fun _ => congrArg Host.Outcome.next hend, fun hne => absurd hnone hne⟩
    · exact ⟨fun heq => absurd heq hsome, fun _ => ⟨_, rfl, rfl, rfl⟩⟩

end Sys2Proof.Claims
end

section
/-! SUPPORT and PROOFS, family other, the encoding. The fields of a word as numbers, the verdict of R77 category by
category, and the fields of a word that a row of the opcode map covers. -/

namespace Sys2Proof.Machine

/-! ## The bytes of a word -/

/-- The two bytes of a word make the word again (R57, R70). -/
theorem bigEndian_highByte_lowByte (op : Word) : bigEndian (highByte op) (lowByte op) = op := by
  refine BitVec.eq_of_toNat_eq ?_
  have hlt := op.isLt
  simp only [bigEndian_toNat, highByte, lowByte, BitVec.extractLsb'_toNat, Nat.shiftRight_eq_div_pow]
  omega

/-- The bytes of an encoded instruction decode to it, and the bytes after it are left (R70). -/
theorem decodeBytes_encodeBytes (i : Instr) (rest : List Byte) :
    decodeBytes (encodeBytes i ++ rest) = .ok (i, rest) := by
  simp only [encodeBytes, List.cons_append, List.nil_append, decodeBytes, bigEndian_highByte_lowByte,
    Laws.decode_encode]

/-! ## The fields of a word as numbers -/

/-- The category as a number (R71). -/
theorem opC_toNat (op : Word) : (opC op).toNat = op.toNat / 4096 := by
  have hlt := op.isLt
  rw [opC, BitVec.extractLsb'_toNat, Nat.shiftRight_eq_div_pow]
  omega

/-- The lowest nibble as a number (R71). -/
theorem opN_toNat (op : Word) : (opN op).toNat = op.toNat % 16 := by
  rw [opN, BitVec.extractLsb'_toNat, Nat.shiftRight_zero]

/-- The low byte as a number (R71). -/
theorem opNN_toNat (op : Word) : (opNN op).toNat = op.toNat % 256 := by
  rw [opNN, BitVec.extractLsb'_toNat, Nat.shiftRight_zero]

/-! ## What is no instruction -/

/-- The decoder's answer on `op` is the verdict of R77 where `illegal` holds, and an instruction elsewhere. -/
structure Rejects (answer : Except DecodeError Instr) (op : Word) (illegal : Prop) : Prop where
  rejected : illegal → answer = undefinedWord op
  accepted : ¬ illegal → ∃ i, answer = .ok i

/-- An answered instruction rejects nothing. -/
theorem Rejects.never {i : Instr} {op : Word} {illegal : Prop} (h : ¬ illegal) : Rejects (.ok i) op illegal :=
  ⟨fun hill => absurd hill h, fun _ => ⟨i, rfl⟩⟩

/-- The verdict of R77 accepts nothing. -/
theorem Rejects.always {op : Word} {illegal : Prop} (h : illegal) : Rejects (undefinedWord op) op illegal :=
  ⟨fun _ => rfl, fun hleg => absurd h hleg⟩

/-- The verdict is given exactly on the illegal words. -/
theorem Rejects.eq_undefinedWord_iff {answer : Except DecodeError Instr} {op : Word} {illegal : Prop}
    (h : Rejects answer op illegal) : answer = undefinedWord op ↔ illegal := by
  refine ⟨fun heq => by_contra fun hleg => ?_, h.rejected⟩
  obtain ⟨i, hi⟩ := h.accepted hleg
  cases hi.symm.trans heq

/-- Category 0: all but its two words (R77). -/
theorem decode0_rejects (op : Word) : Rejects (decode0 op) op (op ≠ 0x00E0 ∧ op ≠ 0x00EE) := by
  unfold decode0
  split
  next hcls => exact .never fun hill => hill.1 hcls
  next hcls =>
    split
    next hret => exact .never fun hill => hill.2 hret
    next hret => exact .always ⟨hcls, hret⟩

/-- Category 8: seven sub-opcodes (R77). -/
theorem decode8_rejects (op : Word) :
    Rejects (decode8 op) op ((opN op).toNat ∈ [0x8, 0x9, 0xA, 0xB, 0xC, 0xD, 0xF]) := by
  have hlt := (opN op).isLt
  unfold decode8
  split
  case h_10 =>
    refine .always ?_
    simp only [List.mem_cons, List.not_mem_nil, or_false]
    grind
  all_goals exact .never (by simp [*])

/-- Category E: all but two low bytes (R77). -/
theorem decodeE_rejects (op : Word) : Rejects (decodeE op) op ((opNN op).toNat ∉ [0x9E, 0xA1]) := by
  unfold decodeE
  split
  case h_3 =>
    refine .always ?_
    simp only [List.mem_cons, List.not_mem_nil, or_false]
    tauto
  all_goals exact .never (by simp [*])

/-- Category F: all but nine low bytes (R77). -/
theorem decodeF_rejects (op : Word) :
    Rejects (decodeF op) op ((opNN op).toNat ∉ [0x07, 0x0A, 0x15, 0x18, 0x1E, 0x29, 0x33, 0x55, 0x65]) := by
  unfold decodeF
  split
  case h_10 =>
    refine .always ?_
    simp only [List.mem_cons, List.not_mem_nil, or_false]
    tauto
  all_goals exact .never (by simp [*])

/-- Categories 5 and 9: all but the low nibble 0 (R77). -/
theorem ite_opN_rejects (op : Word) (i : Instr) :
    Rejects (if opN op = 0 then .ok i else undefinedWord op) op ((opN op).toNat ≠ 0) := by
  have hzero : opN op = 0 ↔ (opN op).toNat = 0 := BitVec.toNat_inj.symm
  by_cases h : opN op = 0
  · rw [if_pos h]
    exact .never (not_not.2 (hzero.1 h))
  · rw [if_neg h]
    exact .always (mt hzero.2 h)

/-- R77's table: the six sets of illegal words, by the fields of the word. -/
def illegalWord (op : Word) : Prop :=
  ((opC op).toNat = 0x0 ∧ op ≠ 0x00E0 ∧ op ≠ 0x00EE) ∨
  ((opC op).toNat = 0x5 ∧ (opN op).toNat ≠ 0) ∨
  ((opC op).toNat = 0x8 ∧ (opN op).toNat ∈ [0x8, 0x9, 0xA, 0xB, 0xC, 0xD, 0xF]) ∨
  ((opC op).toNat = 0x9 ∧ (opN op).toNat ≠ 0) ∨
  ((opC op).toNat = 0xE ∧ (opNN op).toNat ∉ [0x9E, 0xA1]) ∨
  ((opC op).toNat = 0xF ∧ (opNN op).toNat ∉ [0x07, 0x0A, 0x15, 0x18, 0x1E, 0x29, 0x33, 0x55, 0x65])

/-- The decoder rejects exactly the words of R77's table, category by category: case `h_k` is category `k - 1` of R76,
and the last case is the arm that no category reaches. -/
theorem decode_rejects (op : Word) : Rejects (decode op) op (illegalWord op) := by
  have hlt := (opC op).isLt
  unfold decode
  split
  case h_1 hc => simpa [illegalWord, hc] using decode0_rejects op
  case h_6 hc | h_10 hc => simpa [illegalWord, hc] using ite_opN_rejects op _
  case h_9 hc => simpa [illegalWord, hc] using decode8_rejects op
  case h_15 hc => simpa [illegalWord, hc] using decodeE_rejects op
  case h_16 hc => simpa [illegalWord, hc] using decodeF_rejects op
  case h_17 => grind
  all_goals exact .never (by simp [illegalWord, *])

/-! ## Rows of the opcode map -/

/-- A field of a word that a row covers: where the mask keeps the field whole, it is the field of the row's value. -/
theorem extractLsb'_of_covers {r : OpcodeRow} {op : Word} {start len : Nat} (h : r.covers op = true)
    (hmask : r.mask.extractLsb' start len = BitVec.allOnes len) :
    op.extractLsb' start len = r.value.extractLsb' start len := by
  rw [← beq_iff_eq.1 h, BitVec.extractLsb'_and, hmask, BitVec.and_allOnes]

/-- Every row's mask keeps the fields that its category selects by (R76): the category itself, then the whole word, the
sub-opcode or the low byte. -/
theorem opcodeRows_masks : ∀ r ∈ opcodeRows,
    opC r.mask = 0xF ∧ ((opC r.value).toNat = 0x0 → r.mask = 0xFFFF) ∧
      ((opC r.value).toNat ∈ [0x5, 0x8, 0x9] → opN r.mask = 0xF) ∧
      ((opC r.value).toNat ∈ [0xE, 0xF] → opNN r.mask = 0xFF) := by decide

/-- No row's value is in R77's table. -/
theorem opcodeRows_values : ∀ r ∈ opcodeRows, ¬ illegalWord r.value := by
  unfold illegalWord
  decide

/-- A word that a row covers is in R77's table exactly when the row's value is: the table asks for no more than the
mask keeps. -/
theorem illegalWord_iff_of_covers {r : OpcodeRow} {op : Word} (hr : r ∈ opcodeRows) (h : r.covers op = true) :
    illegalWord op ↔ illegalWord r.value := by
  obtain ⟨hmaskC, hmaskWord, hmaskN, hmaskNN⟩ := opcodeRows_masks r hr
  have hC : opC op = opC r.value := extractLsb'_of_covers h hmaskC
  have hWord (h0 : (opC r.value).toNat = 0x0) : op = r.value := by
    rw [← beq_iff_eq.1 h, hmaskWord h0]
    exact BitVec.and_allOnes.symm
  have hN (hmem : (opC r.value).toNat ∈ [0x5, 0x8, 0x9]) : opN op = opN r.value :=
    extractLsb'_of_covers h (hmaskN hmem)
  have hNN (hmem : (opC r.value).toNat ∈ [0xE, 0xF]) : opNN op = opNN r.value :=
    extractLsb'_of_covers h (hmaskNN hmem)
  unfold illegalWord
  rw [hC]
  refine or_congr (and_congr_right fun hc => ?_) (or_congr (and_congr_right fun hc => ?_)
    (or_congr (and_congr_right fun hc => ?_) (or_congr (and_congr_right fun hc => ?_)
      (or_congr (and_congr_right fun hc => ?_) (and_congr_right fun hc => ?_)))))
  · rw [hWord hc]
  · rw [hN (by simp [hc])]
  · rw [hN (by simp [hc])]
  · rw [hN (by simp [hc])]
  · rw [hNN (by simp [hc])]
  · rw [hNN (by simp [hc])]

/-- A word that a row covers is an instruction (R75). -/
theorem decode_of_covers {r : OpcodeRow} {op : Word} (hr : r ∈ opcodeRows) (h : r.covers op = true) :
    ∃ i, decode op = .ok i :=
  (decode_rejects op).accepted (mt (illegalWord_iff_of_covers hr h).1 (opcodeRows_values r hr))

/-- Rows whose values agree where both masks look are the same row. -/
theorem opcodeRows_disjoint : ∀ r ∈ opcodeRows, ∀ r' ∈ opcodeRows,
    r.value &&& r'.mask = r'.value &&& r.mask → r = r' := by decide

/-- No word is covered by two rows (R75). -/
theorem eq_of_covers {r r' : OpcodeRow} {op : Word} (hr : r ∈ opcodeRows) (hr' : r' ∈ opcodeRows)
    (h : r.covers op = true) (h' : r'.covers op = true) : r = r' := by
  refine opcodeRows_disjoint r hr r' hr' ?_
  rw [← beq_iff_eq.1 h, ← beq_iff_eq.1 h', BitVec.and_assoc, BitVec.and_assoc, BitVec.and_comm r.mask]

/-- The row of every instruction is one of the 34. -/
theorem opcodeRow_mem (i : Instr) : opcodeRow i ∈ opcodeRows := by
  cases i <;> simp [opcodeRows, opcodeRow]

open Laws in
/-- The encoding of every instruction matches its row (R73, R75). -/
theorem covers_encode : ∀ i, (opcodeRow i).covers (encode i) = true
  | .cls => EncodesRow.cls | .ret => EncodesRow.ret | .jp x => EncodesRow.jp x | .call x => EncodesRow.call x
  | .seImm x y => EncodesRow.seImm x y | .sneImm x y => EncodesRow.sneImm x y
  | .seReg x y => EncodesRow.seReg x y | .ldImm x y => EncodesRow.ldImm x y
  | .addImm x y => EncodesRow.addImm x y | .ldReg x y => EncodesRow.ldReg x y
  | .orReg x y => EncodesRow.orReg x y | .andReg x y => EncodesRow.andReg x y
  | .xorReg x y => EncodesRow.xorReg x y | .addReg x y => EncodesRow.addReg x y
  | .sub x y => EncodesRow.sub x y | .shr x y => EncodesRow.shr x y | .subn x y => EncodesRow.subn x y
  | .shl x y => EncodesRow.shl x y | .sneReg x y => EncodesRow.sneReg x y | .ldI x => EncodesRow.ldI x
  | .jpV0 x => EncodesRow.jpV0 x | .rnd x y => EncodesRow.rnd x y | .drw x y n => EncodesRow.drw x y n
  | .skp x => EncodesRow.skp x | .sknp x => EncodesRow.sknp x | .ldVxDt x => EncodesRow.ldVxDt x
  | .ldVxK x => EncodesRow.ldVxK x | .ldDtVx x => EncodesRow.ldDtVx x | .ldStVx x => EncodesRow.ldStVx x
  | .addIVx x => EncodesRow.addIVx x | .ldFVx x => EncodesRow.ldFVx x | .ldBVx x => EncodesRow.ldBVx x
  | .ldMemVx x => EncodesRow.ldMemVx x | .ldVxMem x => EncodesRow.ldVxMem x

end Sys2Proof.Machine

namespace Sys2Proof.Claims

open Sys2Proof Sys2Proof.Machine

/-- Settles O2: `decode` and `decodeBytes` on an encoded instruction, format by format. -/
theorem decodeOfEncodeIsTheInstruction : Obligations.DecodeOfEncodeIsTheInstruction :=
  fun i rest => ⟨Laws.decode_encode i, decodeBytes_encodeBytes i rest⟩

/-- Settles O3: every field of a legal word is an operand or fixed by its category. -/
theorem encodeOfDecodeIsTheWord : Obligations.EncodeOfDecodeIsTheWord := fun _ _ h => encode_of_decode h

/-- Settles O4: the decoder rejects exactly R77's table, whose fields are the statement's numbers. -/
theorem illegalWordsAreExactlyTheTable : Obligations.IllegalWordsAreExactlyTheTable := by
  intro op
  rw [← opC_toNat, ← opN_toNat, ← opNN_toNat]
  exact ⟨(decode_rejects op).eq_undefinedWord_iff,
    fun hne => (decode_rejects op).accepted (mt (decode_rejects op).rejected hne)⟩

/-- Settles O5: a covered word is not in R77's table; a word that decodes is its instruction's encoding, which lies in
that instruction's row, and no other row covers it. -/
theorem decodingSelectsTheOneTableRow : Obligations.DecodingSelectsTheOneTableRow := by
  refine fun op => ⟨fun hdefined => ?decodes, fun i hi => ?row⟩
  case decodes =>
    obtain ⟨r, hr, hcovers⟩ := List.any_eq_true.1 hdefined
    exact decode_of_covers hr hcovers
  case row =>
    have hcovers : (opcodeRow i).covers op = true := encode_of_decode hi ▸ covers_encode i
    exact ⟨hcovers, fun r hr h => eq_of_covers hr (opcodeRow_mem i) h hcovers⟩

/-- Settles O1: each word is decoded by computation. -/
theorem wordsOfEveryFamilyDecode : Obligations.WordsOfEveryFamilyDecode := by
  unfold Obligations.WordsOfEveryFamilyDecode
  decide

end Sys2Proof.Claims
end

section
/-! SUPPORT and PROOFS, family other, the frames of an instruction. What every instruction writes and where it leaves
the pc, said once as one state: the fault of its own check, or its writes and its next-pc class. -/

namespace Sys2Proof.Claims

open Sys2Proof Sys2Proof.Machine

/-! ## The effect of an instruction -/

/-- The registers after a logic operation, by `P_LOGIC_VF` (R144). -/
def logicRegs (x : RegIx) (r : Byte) (s : State) : Registers :=
  if s.params.logicVf = .cleared then (s.v.set x r).set regVF 0 else s.v.set x r

/-- `I` after a block transfer, by `P_LDST_I` (R164). -/
def transferI (count : Nat) (s : State) : Word :=
  if s.params.ldstI = .advance then s.i + BitVec.ofNat 16 count else s.i

/-- What an instruction whose check passes writes, but for the pc and the outcome. -/
def effect (i : Instr) (s : State) : State :=
  match i with
  | .cls => setFb (Vector.replicate 256 0) s
  | .ret => { s with sp := ⟨s.sp.val - 1, by omega⟩ }
  | .call _ => { s with
      stack := s.stack.setIfInBounds s.sp.val (s.pc + 2), sp := ⟨min (s.sp.val + 1) 16, by omega⟩ }
  | .ldImm x nn => setV x nn s
  | .addImm x nn => setV x (getV x s + nn) s
  | .ldReg x y => setV x (getV y s) s
  | .orReg x y => setRegs (logicRegs x (getV x s ||| getV y s) s) s
  | .andReg x y => setRegs (logicRegs x (getV x s &&& getV y s) s) s
  | .xorReg x y => setRegs (logicRegs x (getV x s ^^^ getV y s) s) s
  | .addReg x y => setResultFlag x (getV x s + getV y s) (carryFlag (getV x s) (getV y s)) s
  | .sub x y => setResultFlag x (getV x s - getV y s) (noBorrowFlag (getV x s) (getV y s)) s
  | .shr x y => setResultFlag x (shiftSource x y s >>> 1) (lowBitFlag (shiftSource x y s)) s
  | .subn x y => setResultFlag x (getV y s - getV x s) (noBorrowFlag (getV y s) (getV x s)) s
  | .shl x y => setResultFlag x (shiftSource x y s <<< 1) (highBitFlag (shiftSource x y s)) s
  | .ldI nnn => setI (zextAddr nnn) s
  | .rnd x nn => setV x ((currentInput s).rnd &&& nn) s
  | .drw x y n => setV regVF (flagByte (drawSprite x y n s).coll) (setFb (drawSprite x y n s).fb s)
  | .ldVxDt x => setV x s.dt s
  | .ldVxK x => setRegs ((leastBit (newPresses s)).elim s.v fun k => s.v.set x (BitVec.ofNat 8 k)) s
  | .ldDtVx x => setDt (getV x s) s
  | .ldStVx x => setSt (getV x s) s
  | .addIVx x => setI (s.i + zextByte (getV x s)) s
  | .ldFVx x => setI (glyphAddr (getV x s)) s
  | .ldBVx x => setMem (s.mem.writeBytes s.i.toNat (bcdDigits (getV x s))) s
  | .ldMemVx x => setI (transferI (x.val + 1) s) (setMem (s.mem.writeBytes s.i.toNat (regBytes x s)) s)
  | .ldVxMem x => setI (transferI (x.val + 1) s) (setRegs (loadRegs s.mem s.i.toNat (x.val + 1) s.v) s)
  | .jp _ | .seImm _ _ | .sneImm _ _ | .seReg _ _ | .sneReg _ _ | .jpV0 _ | .skp _ | .sknp _ => s

/-- The next-pc class of an instruction whose check passes (R106). -/
def nextClass (i : Instr) (s : State) : NextPc :=
  match i with
  | .ret => .jump (s.stack.toList.getD (s.sp.val - 1) 0)
  | .jp nnn | .call nnn => .jump (zextAddr nnn)
  | .jpV0 nnn => .jump (offsetTarget nnn s)
  | .seImm x nn => .skip (decide (getV x s = nn))
  | .sneImm x nn => .skip (decide (getV x s ≠ nn))
  | .seReg x y => .skip (decide (getV x s = getV y s))
  | .sneReg x y => .skip (decide (getV x s ≠ getV y s))
  | .skp x => .skip (buttonDown (getV x s).toNat s)
  | .sknp x => .skip (!buttonDown (getV x s).toNat s)
  | .ldVxK _ => (leastBit (newPresses s)).elim .stay fun _ => .seq
  | _ => .seq

/-- The state after an instruction: the fault of its own check, else its writes with the pc of its class (R103). -/
def executed (i : Instr) (s : State) : State :=
  match instrFault s i with
  | some kind => raiseAt i kind s
  | none => advance (nextClass i s) (effect i s)

section
variable {i : Instr} {s t : State} {kind : FaultKind}

/-- An instruction whose check fails takes that fault. -/
theorem executed_of_some (h : instrFault s i = some kind) : executed i s = raiseAt i kind s := by
  rw [executed, h]

/-- An instruction whose check passes writes its effect. -/
theorem executed_of_none (h : instrFault s i = none) : executed i s = advance (nextClass i s) (effect i s) := by
  rw [executed, h]

/-- An instruction that completes where its access passes the range check, and faults elsewhere (R53, R235). -/
theorem executed_of_rangeCheck {n : Nat} {p : Prop} [Decidable p]
    (hcheck : instrFault s i = if p then some kind else none) (hp : n = 0 ∨ s.i.toNat + n ≤ memSize ↔ ¬ p)
    (hclass : nextClass i s = .seq) :
    (if inRange s.i n then advance .seq (effect i s) else raiseAt i kind s) = executed i s := by
  have hrange := inRange_iff.trans hp
  by_cases hfault : p
  · rw [if_neg (mt hrange.1 (not_not.2 hfault)), executed_of_some (hcheck.trans (if_pos hfault))]
  · rw [if_pos (hrange.2 hfault), executed_of_none (hcheck.trans (if_neg hfault)), hclass]

/-- A logic operation writes the registers alone. -/
theorem setLogic_eq_setRegs (x : RegIx) (r : Byte) (s : State) : setLogic x r s = setRegs (logicRegs x r s) s := by
  rw [logicRegs, ← setLogic_v]
  unfold setLogic
  cases s.params.logicVf <;> rfl

/-- A block transfer moves `I` at most. -/
theorem advanceI_eq_setI (n : Nat) (s : State) : advanceI n s = setI (transferI n s) s := by
  rw [transferI, ← advanceI_i]
  unfold advanceI
  cases s.params.ldstI <;> rfl

/-- Where the check fails, taking the fault is what `executed` says. -/
theorem exec_eq_of_some (hcheck : instrFault s i = some kind) (h : exec i s = .next (raiseAt i kind s)) :
    exec i s = .next (executed i s) := by
  rw [h, executed_of_some hcheck]

/-- Where the check passes, the effect with its class is what `executed` says. -/
theorem exec_eq_of_none (hcheck : instrFault s i = none)
    (h : exec i s = .next (advance (nextClass i s) (effect i s))) : exec i s = .next (executed i s) := by
  rw [h, executed_of_none hcheck]

/-- The effect of a return with an entry in use is the pop, and its class the entry popped (R120). -/
theorem execRet_of_pos (h : 0 < s.sp.val) : execRet s = .next (advance (nextClass .ret s) (effect .ret s)) := by
  have hlt : s.sp.val - 1 < s.stack.toList.length := by
    rw [Vector.length_toList]
    omega
  rw [execRet, pop_of_pos h, nextClass, List.getD_eq_getElem _ _ hlt, Vector.getElem_toList]
  rfl

/-- The effect of a call with room is the push (R122). -/
theorem execCall_of_lt {nnn : Addr} (h : s.sp.val < 16) :
    execCall nnn s = .next (advance (nextClass (.call nnn) s) (effect (.call nnn) s)) := by
  have hmin : min (s.sp.val + 1) 16 = s.sp.val + 1 := by omega
  have hset : s.stack.setIfInBounds s.sp.val (s.pc + 2) = s.stack.set s.sp.val (s.pc + 2) :=
    Vector.ext fun k hk => by rw [Vector.getElem_setIfInBounds, Vector.getElem_set]
  simp only [execCall, push_of_lt h, nextClass, effect, hmin, hset]

/-- Every instruction answers the state that its check, its effect and its class say. -/
theorem exec_eq_executed (i : Instr) (s : State) : exec i s = .next (executed i s) := by
  cases i
  case ret =>
    rcases Nat.eq_zero_or_pos s.sp.val with hempty | hpos
    · exact exec_eq_of_some (if_pos hempty) (execRet_of_empty hempty)
    · exact exec_eq_of_none (if_neg hpos.ne') (execRet_of_pos hpos)
  case call nnn =>
    rcases Nat.lt_or_ge s.sp.val 16 with hlt | hge
    · exact exec_eq_of_none (if_neg hlt.ne) (execCall_of_lt hlt)
    · have hfull : s.sp.val = 16 := by omega
      exact exec_eq_of_some (if_pos hfull) (execCall_of_full hfull)
  case skp x =>
    rcases Nat.lt_or_ge 15 s.v[x].toNat with hgt | hle
    · exact exec_eq_of_some (if_pos hgt) (execSkp_of_gt hgt)
    · exact exec_eq_of_none (if_neg (Nat.not_lt.2 hle)) (execSkp_of_le hle)
  case sknp x =>
    rcases Nat.lt_or_ge 15 s.v[x].toNat with hgt | hle
    · exact exec_eq_of_some (if_pos hgt) (execSknp_of_gt hgt)
    · exact exec_eq_of_none (if_neg (Nat.not_lt.2 hle)) (execSknp_of_le hle)
  case ldVxK x =>
    refine exec_eq_of_none rfl ?_
    rw [nextClass, effect]
    rcases hbit : leastBit (newPresses s) with _ | k
    · exact execLdVxK_of_none hbit
    · exact execLdVxK_of_some hbit
  case drw | ldBVx =>
    exact congrArg Host.Outcome.next (executed_of_rangeCheck rfl (by simp only [memSize]; omega) rfl)
  case ldMemVx x =>
    rw [← executed_of_rangeCheck (n := x.val + 1) rfl (by simp only [memSize]; omega) rfl, effect]
    rw [exec, execLdMemVx, advanceI_eq_setI]
    rfl
  case ldVxMem x =>
    rw [← executed_of_rangeCheck (n := x.val + 1) rfl (by simp only [memSize]; omega) rfl, effect]
    rw [exec, execLdVxMem, advanceI_eq_setI]
    rfl
  case orReg | andReg | xorReg =>
    refine exec_eq_of_none rfl ?_
    rw [effect, ← setLogic_eq_setRegs]
    rfl
  all_goals rfl

/-- The state that an instruction answers. -/
theorem eq_executed (h : exec i s = .next t) : executed i s = t :=
  Host.Outcome.next.inj ((exec_eq_executed i s).symm.trans h)

/-- The inversion of `exec`: the fault of the instruction's check, or its effect with the pc of its class. -/
theorem exec_inv (h : exec i s = .next t) :
    (∃ kind, instrFault s i = some kind ∧ t = raiseAt i kind s) ∨
      (instrFault s i = none ∧ t = advance (nextClass i s) (effect i s)) := by
  obtain rfl := eq_executed h
  rcases hcheck : instrFault s i with _ | kind
  · exact .inr ⟨rfl, executed_of_none hcheck⟩
  · exact .inl ⟨kind, rfl, executed_of_some hcheck⟩

/-! ## The writers of each part of the state -/

/-- The framebuffer is written by `00E0` and `DXYN` alone (R37). -/
theorem exec_fb (h : exec i s = .next t) (hcls : i ≠ .cls) (hdrw : ∀ x y n, i ≠ .drw x y n) : t.fb = s.fb := by
  obtain ⟨kind, -, rfl⟩ | ⟨-, rfl⟩ := exec_inv h
  · rfl
  · cases i
    case cls => exact absurd rfl hcls
    case drw x y n => exact absurd rfl (hdrw x y n)
    all_goals rfl

/-- The stack entries are written by a call alone (R27, R28). -/
theorem exec_stack (h : exec i s = .next t) (hcall : ∀ nnn, i ≠ .call nnn) : t.stack = s.stack := by
  obtain ⟨kind, -, rfl⟩ | ⟨-, rfl⟩ := exec_inv h
  · rfl
  · cases i
    case call nnn => exact absurd rfl (hcall nnn)
    all_goals rfl

/-- The stack pointer is written by a call and a return alone (R27). -/
theorem exec_sp (h : exec i s = .next t) (hcall : ∀ nnn, i ≠ .call nnn) (hret : i ≠ .ret) : t.sp = s.sp := by
  obtain ⟨kind, -, rfl⟩ | ⟨-, rfl⟩ := exec_inv h
  · rfl
  · cases i
    case call nnn => exact absurd rfl (hcall nnn)
    case ret => exact absurd rfl hret
    all_goals rfl

/-- A logic operation writes its destination, and `VF` with `P_LOGIC_VF = Cleared` (R144). -/
theorem logicRegs_getElem_ne {x k : RegIx} {r : Byte} (hx : k ≠ x)
    (hf : (s.params.logicVf == .cleared) = true → k ≠ 15) :
    (logicRegs x r s)[k] = s.v[k] := by
  unfold logicRegs
  split
  next hcleared => exact setResultFlag_getElem_ne hx (hf (beq_iff_eq.2 hcleared)) r 0 s
  next => exact setV_getElem_ne hx r s

/-- A register that is neither the destination, nor the flag where it is written, nor loaded by `FX65` is kept
(R24). -/
theorem effect_getElem_v {k : RegIx} (hdest : destination i ≠ some k)
    (hflag : writesFlag s.params i = true → k ≠ 15) (hload : ∀ x, i = .ldVxMem x → ¬ k ≤ x) :
    (effect i s).v[k] = s.v[k] := by
  have hne {x : RegIx} (hx : destination i = some x) : k ≠ x := fun heq => hdest (heq ▸ hx)
  cases i
  case ldImm | addImm | ldReg | rnd | ldVxDt => exact setV_getElem_ne (hne rfl) _ s
  case orReg | andReg | xorReg => exact logicRegs_getElem_ne (hne rfl) hflag
  case addReg | sub | shr | subn | shl => exact setResultFlag_getElem_ne (hne rfl) (hflag rfl) _ _ s
  case drw => exact setV_getElem_ne (hflag rfl) _ _
  case ldVxK x =>
    rw [effect, setRegs_v]
    rcases leastBit (newPresses s) with _ | b
    · rfl
    · exact setV_getElem_ne (hne rfl) _ s
  case ldVxMem x =>
    exact (loadRegs_getElem_regIx s.mem s.i.toNat s.v x k).trans (if_neg (hload x rfl))
  all_goals rfl

/-- A register that an instruction changed is its destination, the flag that it writes, or one that `FX65` loads
(R24). -/
theorem register_of_changed {k : RegIx} (h : exec i s = .next t) (hne : t.v[k] ≠ s.v[k]) :
    destination i = some k ∨ (writesFlag s.params i = true ∧ k = 15) ∨ ∃ x, i = .ldVxMem x ∧ k ≤ x := by
  obtain ⟨kind, -, rfl⟩ | ⟨-, rfl⟩ := exec_inv h
  · exact absurd rfl hne
  · by_contra hnone
    obtain ⟨hdest, hflag, hload⟩ : _ ∧ _ ∧ _ := by simpa only [not_or] using hnone
    exact hne (effect_getElem_v hdest (fun hw hk => hflag ⟨hw, hk⟩) fun x hx hle => hload ⟨x, hx, hle⟩)

/-- The flag byte is 0 or 1. -/
theorem flagByte_eq_zero_or_one (b : Bool) : flagByte b = 0 ∨ flagByte b = 1 := by
  cases b
  · exact .inl rfl
  · exact .inr rfl

/-- A logic operation with `P_LOGIC_VF = Cleared` leaves 0 in `VF` (R144, the spec's decision D6). -/
theorem logicRegs_flag {x : RegIx} {r : Byte} (h : s.params.logicVf = .cleared) :
    (logicRegs x r s)[(15 : Fin 16)] = 0 := by
  rw [logicRegs, if_pos h]
  exact setResultFlag_getElem_flag x r 0 s

/-- An instruction that writes the flag leaves 0 or 1 in `VF` (R22). -/
theorem effect_flag (h : writesFlag s.params i = true) :
    (effect i s).v[(15 : Fin 16)] = 0 ∨ (effect i s).v[(15 : Fin 16)] = 1 := by
  cases i
  case orReg | andReg | xorReg => exact .inl (logicRegs_flag (beq_iff_eq.1 h))
  case addReg | sub | shr | subn | shl =>
    rw [effect, setResultFlag_getElem_flag]
    exact flagByte_eq_zero_or_one _
  case drw =>
    rw [effect]
    exact (setV_getElem_same regVF _ _).symm ▸ flagByte_eq_zero_or_one _
  all_goals cases h

end

/-! ## The obligations on executed instructions -/

/-- Settles O19: by the inversion of an instruction and the registers its effect keeps. -/
theorem registersChangeOnlyByTheirWriters : Obligations.RegistersChangeOnlyByTheirWriters :=
  fun _ _ _ _ h hne => register_of_changed h hne

/-- Settles O18: an instruction without a fault leaves its effect, whose `VF` is a flag byte or 0; one that does not
write the flag changes `VF` only as a destination or by `FX65`. -/
theorem flagIsWrittenExactlyByItsInstructions : Obligations.FlagIsWrittenExactlyByItsInstructions := by
  refine fun i s t _ h => ⟨fun hwrites hfaulted => ?flag, fun x y hlogic hcleared => ?cleared,
    fun hwrites hdest hload => ?kept⟩
  case flag =>
    obtain ⟨kind, -, rfl⟩ | ⟨-, rfl⟩ := exec_inv h
    · cases hfaulted
    · exact effect_flag hwrites
  case cleared =>
    obtain ⟨kind, hcheck, -⟩ | ⟨-, rfl⟩ := exec_inv h
    · obtain rfl | rfl | rfl := hlogic <;> cases hcheck
    · obtain rfl | rfl | rfl := hlogic <;> exact logicRegs_flag hcleared
  case kept =>
    by_contra hne
    obtain hd | ⟨hw, -⟩ | ⟨x, rfl, hle⟩ := register_of_changed h hne
    · exact hdest hd
    · rw [hwrites] at hw
      cases hw
    · exact hload (congrArg Instr.ldVxMem (Fin.last_le_iff.1 hle))

/-- A block transfer with `P_LDST_I = Advance` moves `I` past the bytes (R25, the spec's decision D8). -/
theorem transferI_of_advance {n : Nat} {s : State} (h : s.params.ldstI = .advance) :
    (transferI n s).toNat = (s.i.toNat + n) % 0x10000 := by
  rw [transferI, ← advanceI_i, advanceI_i_toNat, if_pos h]

/-- Settles O20: a fault keeps `I`, and so does every effect but those of the writers of R25, whose values are taken as
numbers. -/
theorem indexChangesOnlyByItsWriters : Obligations.IndexChangesOnlyByItsWriters := by
  intro i s t hs h
  obtain ⟨kind, hcheck, rfl⟩ | ⟨-, rfl⟩ := exec_inv h
  · cases i
    case ldI | addIVx | ldFVx => cases hcheck
    case ldMemVx | ldVxMem =>
      dsimp only
      rw [if_neg (fun hand => nomatch hand.2)]
      rfl
    all_goals rfl
  · cases i
    case ldI nnn => exact ⟨hs, zextAddr_toNat nnn⟩
    case addIVx x =>
      refine ⟨hs, (BitVec.toNat_add s.i _).trans ?_⟩
      rw [zextByte_toNat]
      rfl
    case ldFVx x => exact ⟨hs, glyphAddr_toNat s.v[x]⟩
    case ldMemVx x | ldVxMem x =>
      dsimp only
      by_cases hadv : s.params.ldstI = .advance
      · rw [if_pos ⟨hadv, hs⟩]
        exact transferI_of_advance hadv
      · rw [if_neg fun hand => hadv hand.1]
        exact if_neg hadv
    all_goals rfl

/-! ## What no instruction reads -/

/-- An instruction commutes with an update of the state that its check and its class do not see, and that its writes,
a fault and the end of an instruction commute with. -/
theorem executed_comm {f : State → State} {i : Instr} {s : State} (hcheck : instrFault (f s) i = instrFault s i)
    (hclass : nextClass i (f s) = nextClass i s) (heffect : effect i (f s) = f (effect i s))
    (hraise : ∀ kind, raiseAt i kind (f s) = f (raiseAt i kind s))
    (hadvance : ∀ k u, advance k (f u) = f (advance k u)) : executed i (f s) = f (executed i s) := by
  rcases h : instrFault s i with _ | kind
  · rw [executed_of_none h, executed_of_none (hcheck.trans h), heffect, hclass, hadvance]
  · rw [executed_of_some h, executed_of_some (hcheck.trans h), hraise]

/-- `ST` is read by no instruction, and written by `FX18` alone (R30). -/
theorem executed_setSt {i : Instr} (hi : ∀ x, i ≠ .ldStVx x) (b : Byte) (s : State) :
    executed i (setSt b s) = setSt b (executed i s) := by
  refine executed_comm rfl rfl ?effect (fun _ => rfl) (fun _ _ => rfl)
  cases i
  case ldStVx x => exact absurd rfl (hi x)
  all_goals rfl

/-- The recorded bitmask replaced (R33). -/
def setPrevKeys (keys : Word) (s : State) : State := { s with prevKeys := keys }

/-- `prevKeys` is read by `FX0A` alone, in its class and in its effect (R33). -/
theorem executed_setPrevKeys {i : Instr} (hi : ∀ x, i ≠ .ldVxK x) (keys : Word) (s : State) :
    executed i (setPrevKeys keys s) = setPrevKeys keys (executed i s) := by
  refine executed_comm rfl ?nextClass ?effect (fun _ => rfl) (fun _ _ => rfl)
  all_goals
    cases i
    case ldVxK x => exact absurd rfl (hi x)
    all_goals rfl

/-- Settles O54: every instruction but `FX18` commutes with a write of `ST`, and `FX18` overwrites it. -/
theorem soundTimerIsReadByNoInstruction : Obligations.SoundTimerIsReadByNoInstruction := by
  intro i s t b h
  refine ⟨fun hne => ?same, ?written⟩
  case same =>
    rw [← eq_executed h]
    exact (exec_eq_executed i _).trans (congrArg Host.Outcome.next (executed_setSt hne b s))
  case written =>
    rintro ⟨x, rfl⟩
    exact h

/-- Settles O55: every instruction but `FX0A` commutes with a write of `prevKeys`. -/
theorem previousKeysAreReadOnlyByTheWait : Obligations.PreviousKeysAreReadOnlyByTheWait := by
  intro i s t keys hne h
  rw [← eq_executed h]
  exact (exec_eq_executed i _).trans (congrArg Host.Outcome.next (executed_setPrevKeys hne keys s))

end Sys2Proof.Claims
end

section
/-! SUPPORT and PROOFS, family other, the step and its invariant. The frames of a step from those of its instruction,
what a step keeps of the invariant, and the statements about two instructions in a row. -/

namespace Sys2Proof.Machine

/-- A run of bytes inside the address space keeps memory in canonical form. -/
theorem Stores.wf {stored : Nat → Option Byte} {m m' : Memory} (h : Stores stored m m') (hwf : m.wf = true) :
    m'.wf = true := by
  obtain ⟨base, bs, hfit, rfl, -⟩ := h
  exact writeBytes_wf hfit hwf

/-- An instruction leaves the parameters and the inputs (R13). -/
theorem exec_keeps_inputs {i : Instr} {s t : State} (h : exec i s = .next t) :
    t.params = s.params ∧ t.inputs = s.inputs ∧ t.stepNo = s.stepNo := by
  obtain ⟨u, hu, hr⟩ := exec_cases i s
  obtain rfl : u = t := Host.Outcome.next.inj (hu.symm.trans h)
  cases hr with
  | fault kind _ hraise =>
    subst hraise
    exact ⟨rfl, rfl, rfl⟩
  | done _ _ _ _ hp hi hn => exact ⟨hp, hi, hn⟩

/-- The instruction at the pc depends on memory and the pc alone (R103). -/
theorem instrAt_congr {s t : State} (hmem : t.mem = s.mem) (hpc : t.pc = s.pc) : instrAt t = instrAt s := by
  rw [instrAt, instrAt, hmem, hpc]

/-- A spinning state stands at a jump to itself (R114). -/
theorem spinning_iff {s : State} :
    s.spinning = true ↔ ∃ nnn, instrAt s = some (.jp nnn) ∧ zextAddr nnn = s.pc := by
  unfold State.spinning
  split
  next nnn hi => simp [hi]
  next hne =>
    refine ⟨nofun, ?_⟩
    rintro ⟨nnn, hi, -⟩
    exact absurd hi (hne nnn)

end Sys2Proof.Machine

namespace Sys2Proof.Claims

open Sys2Proof Sys2Proof.Machine

/-! ## Frames of a step -/

/-- Settles O15: a fault leaves the framebuffer, and so does every other instruction. -/
theorem framebufferChangesOnlyByClearAndDraw : Obligations.FramebufferChangesOnlyByClearAndDraw := by
  intro s t hstep hcls hdrw
  obtain ⟨-, kind, op, rfl⟩ | ⟨i, u, hi, hu, rfl⟩ := step_cases_instrAt hstep
  · rfl
  · simp only [hi, ne_eq, Option.some.injEq] at hcls hdrw
    simpa using exec_fb hu hcls hdrw

/-- Settles O16: a fault leaves the stack and its pointer, a return the entries, and every other instruction both. -/
theorem stackChangesOnlyByCallAndReturn : Obligations.StackChangesOnlyByCallAndReturn := by
  intro s t hstep hcall
  obtain ⟨-, kind, op, rfl⟩ | ⟨i, u, hi, hu, rfl⟩ := step_cases_instrAt hstep
  · exact ⟨rfl, fun _ => rfl⟩
  · simp only [hi, ne_eq, Option.some.injEq] at hcall ⊢
    simpa using And.intro (exec_stack hu hcall) (exec_sp hu hcall)

/-- Settles O17: a fault leaves memory, and so does every instruction that stores nothing. -/
theorem memoryChangesOnlyByBcdAndStore : Obligations.MemoryChangesOnlyByBcdAndStore := by
  intro s t hstep hbcd hstore
  obtain ⟨-, kind, op, rfl⟩ | ⟨i, u, hi, hu, rfl⟩ := step_cases_instrAt hstep
  · rfl
  · simp only [hi, ne_eq, Option.some.injEq] at hbcd hstore
    simpa using exec_mem_of_not_store hu hbcd hstore

/-- Settles O21: a fault and every instruction leave the parameters and the inputs, and the end of the step takes one
step's inputs. -/
theorem stepTakesOneInputAndKeepsParameters : Obligations.StepTakesOneInputAndKeepsParameters := by
  intro s t hstep
  obtain ⟨-, kind, op, rfl⟩ | ⟨i, u, hi, hu, rfl⟩ := step_cases_instrAt hstep
  · exact ⟨rfl, rfl, rfl⟩
  · obtain ⟨hp, hin, hn⟩ := exec_keeps_inputs hu
    exact ⟨hp, congrArg List.tail hin, congrArg (· + 1) hn⟩

/-! ## The invariant -/

/-- The entry that a return pops is one of the stack, also where none is in use. -/
theorem popped_le {s : State} {bound : Nat} (h : ∀ k : Fin 16, s.stack[k].toNat ≤ bound) :
    (s.stack.toList.getD (s.sp.val - 1) 0).toNat ≤ bound := by
  have hlt : s.sp.val - 1 < 16 := by omega
  rw [List.getD_eq_getElem _ _ (by rwa [Vector.length_toList]), Vector.getElem_toList]
  exact h ⟨_, hlt⟩

/-- The pc after an instruction is at most 0x10FE, the largest target of `BNNN` (R106, R127). -/
theorem pcAfter_le {s : State} (i : Instr) (hpc : s.pc.toNat ≤ 0xFFE)
    (hstack : ∀ k : Fin 16, s.stack[k].toNat ≤ 0x1000) : pcAfter i s ≤ 0x10FE := by
  cases i
  case jp nnn | call nnn =>
    have hnnn := nnn.isLt
    rw [pcAfter]
    omega
  case jpV0 nnn =>
    have hnnn := nnn.isLt
    have hv := s.v[(0 : Fin 16)].isLt
    rw [pcAfter]
    omega
  case ret => exact (popped_le hstack).trans (by decide)
  case seImm | sneImm | seReg | sneReg | skp | sknp | ldVxK =>
    rw [pcAfter]
    split <;> omega
  all_goals exact (Nat.add_le_add_right hpc 2).trans (by decide)

/-- A call pushes a return address of at most 0x1000, and no other instruction writes an entry (R122). -/
theorem exec_stack_le {i : Instr} {s t : State} (h : exec i s = .next t) (hpc : s.pc.toNat ≤ 0xFFE)
    (hstack : ∀ k : Fin 16, s.stack[k].toNat ≤ 0x1000) (k : Fin 16) : t.stack[k].toNat ≤ 0x1000 := by
  cases i
  case call nnn =>
    obtain ⟨kind, -, rfl⟩ | ⟨-, rfl⟩ := exec_inv h
    · exact hstack k
    · rw [advance_stack, effect, Fin.getElem_fin, Vector.getElem_setIfInBounds]
      split
      · exact (nextPc_seq_toNat hpc).le.trans (Nat.add_le_add_right hpc 2)
      · exact hstack k
  all_goals
    rw [exec_stack h nofun]
    exact hstack k

/-- Settles O24: memory takes a run of bytes; a fault sets the latch and the outcome together and leaves the rest, and
a completed instruction leaves both clear, with the pc of its class and at most one entry pushed. -/
theorem stepKeepsTheInvariant : Obligations.StepKeepsTheInvariant := by
  intro s t hinv hstep
  obtain ⟨hwf, -, hpc, hstack⟩ := hinv
  refine ⟨(step_stores hstep).wf hwf, ?_⟩
  cases step_end hstep with
  | faulted kind ht =>
    subst ht
    exact ⟨rfl, hpc, hstack⟩
  | completed i u k hle hi hu hf ho hin ht =>
    subst ht
    refine ⟨hf.trans (outcomeIsFault_of_outcomeOf ho).symm, ?_, exec_stack_le (t := u) hu hle hstack⟩
    exact (exec_pc_eq_pcAfter hu hle hf).le.trans (pcAfter_le i hle hstack)

/-- Settles O22: the stack is all zeros, and the rest is computed. -/
theorem resetSatisfiesTheInvariant : Obligations.ResetSatisfiesTheInvariant :=
  ⟨reset_mem_wf, rfl, by decide, fun k => by simp [State.reset]⟩

/-- Settles O23: a loaded state is the reset state but for its memory and parameters. -/
theorem loadSatisfiesTheInvariant : Obligations.LoadSatisfiesTheInvariant := by
  intro font p image s hload
  obtain ⟨hfits, rfl⟩ := load_eq_loaded hload
  obtain ⟨-, hrest⟩ := resetSatisfiesTheInvariant
  exact ⟨loadedMemory_wf hfits, hrest⟩

/-! ## Reset and the end of a run -/

/-- Settles O25: the font is computed byte by byte, and past it an unlisted address reads as 0. -/
theorem resetHoldsTheTableOfValues : Obligations.ResetHoldsTheTableOfValues := by
  refine ⟨rfl, rfl, rfl, rfl, rfl, rfl, rfl, fun k => ?registers, fun k => ?stack, fun k => ?framebuffer,
    fun a ha _ => resetByte_of_ge ha, rfl, rfl⟩
  case registers | stack | framebuffer => exact Vector.getElem_replicate k.isLt

/-- Settles O28: every byte of the default font is what its address reads as unlisted, so the load lists nothing. -/
theorem resetIsTheLoadOfAnEmptyImage : Obligations.ResetIsTheLoadOfAnEmptyImage := by
  intro font hfont
  have hmem : loadedMemory font [] = [] := by
    rw [loadedMemory, hfont]
    rfl
  rw [load_of_length_le (Nat.zero_le _), hmem]
  rfl

/-- Settles O29: the jump to itself leaves the state as the timer decrement did but for the outcome, so memory and the
pc, and with them the instruction at the pc, are the same after the step. -/
theorem spinningStateChangesOnlyTimersAndKeys : Obligations.SpinningStateChangesOnlyTimersAndKeys := by
  intro s hspin hs
  obtain ⟨nnn, hi, hpc⟩ := spinning_iff.1 hspin
  obtain ⟨u, hu, hstep⟩ := step_of_instrAt hs hi
  obtain rfl : { tickTimers s with outcome := some .completed } = u := by
    cases hu
    rw [advance, nextPc, hpc]
    rfl
  have hend := endStep_of_not_faulted (s := { tickTimers s with outcome := some .completed }) hs
  refine ⟨_, hstep, spinning_iff.2 ⟨nnn, hi, hpc⟩, ?_⟩
  rw [hend]
  rfl

/-! ## The step -/

/-- Settles O6: the word at the pc is the one fetched, and the inputs that the end of the step takes are those of `s`,
since the instruction leaves them. -/
theorem stepRunsTheDecodedInstruction : Obligations.StepRunsTheDecodedInstruction := by
  intro s i hs hpc hdecode
  obtain ⟨u, hu, hstep⟩ := step_of_instrAt hs (instrAt_of_decode (fetch_eq_wordAt hpc) hdecode)
  obtain ⟨-, hin, hn⟩ := exec_keeps_inputs hu
  refine ⟨u, hu, hstep.trans (congrArg Host.Outcome.next ?_)⟩
  rw [endStep, takeInput, recordKeys, currentInput_congr hin hn, currentInput_tickTimers]
  simp only [hin, hn]
  rfl

/-- Settles O7: no fetch answers past the bound, so of the three kinds of step it is the fetch fault. -/
theorem fetchPastMemoryIsACapacityFault : Obligations.FetchPastMemoryIsACapacityFault := by
  intro s hs hpc
  obtain ⟨t, hstep, hkind⟩ := step_of_not_faulted hs
  cases hkind with
  | fetchFault _ ht => rw [hstep, ht, endStep_raise_tickTimers]
  | decodeFault op e hop _ _ => exact absurd (pc_le_of_fetch hop) (Nat.not_le.2 hpc)
  | ran op i u hop _ _ _ _ => exact absurd (pc_le_of_fetch hop) (Nat.not_le.2 hpc)

/-! ## Two instructions in a row -/

/-- Settles O32: the call writes the entry that its stack pointer counts, and the return pops that entry. -/
theorem returnResumesAfterTheCall : Obligations.ReturnResumesAfterTheCall := by
  intro nnn s hlt
  refine ⟨_, execCall_of_sp_eq (k := ⟨s.sp.val, hlt⟩) rfl, fun u hstack hsp => ?_⟩
  refine ⟨_, execRet_of_sp_eq (k := ⟨s.sp.val, hlt⟩) (congrArg Fin.val hsp), ?pc, rfl, hstack⟩
  rw [advance_pc, nextPc, hstack]
  exact Vector.getElem_set_self _

/-- Settles O48: the registers loaded are the bytes read, which are the ones stored. -/
theorem loadAfterStoreRestoresRegisters : Obligations.LoadAfterStoreRestoresRegisters := by
  intro x s hwf hfit
  refine ⟨_, exec_ldMemVx_of_fits hfit, fun u hmem hi => ?_⟩
  have hfit' : accessFits u (x.val + 1) := by rwa [accessFits, hi]
  refine ⟨_, exec_ldVxMem_of_fits hfit', fun k => ?_⟩
  rw [advance_v, advanceI_v, setRegs_v, loadRegs_getElem_regIx, hmem, hi, advance_mem, advanceI_mem, setMem_mem]
  exact ite_congr rfl (fun hk => read_writeBytes_regBytes hfit hwf hk) fun _ => rfl

/-- An address reads after an instruction as the byte stored there, else as before (R59). -/
theorem read_exec {i : Instr} {s t : State} (hwf : s.mem.wf = true) (h : exec i s = .next t) (a : Nat) :
    t.mem.read a = byteAfter i s a := by
  unfold byteAfter
  rcases hstored : byteStored i s a with _ | b
  · exact (exec_stores h).read_of_none hstored
  · exact (exec_stores h).read_of_some hwf hstored

/-- Settles O49: the bytes of the word fetched are read one by one, each the byte stored or the old one. -/
theorem fetchSeesStoredBytes : Obligations.FetchSeesStoredBytes := by
  intro i s hwf
  obtain ⟨t, ht, -⟩ := exec_cases i s
  refine ⟨t, ht, fun p hp => ?_⟩
  rw [fetch_of_le hp, ← read_exec hwf ht, ← read_exec hwf ht, ← bigEndian_toNat, BitVec.ofNat_toNat,
    BitVec.setWidth_eq]

end Sys2Proof.Claims
end
